-- ==== Sys2Proof/Word.lean ====
section
/-!
DEFINITION. The plain number types of the core: bytes, 16-bit words, register numbers, 12-bit immediates.
The widths are the parameters of spec/00_scope.md R5 (REG_BITS 8, PC_BITS, INDEX_BITS and STACK_ENTRY_BITS 16,
NUM_REGS 16), fixed here because a width in a type costs casts in every proof (log 20).
-/
namespace Sys2Proof

/-- A V register's contents, a timer's, a memory byte (R21, R29, R32). -/
abbrev Byte := BitVec 8

/-- The contents of `pc`, `I`, a stack slot and the instruction word (R23, R26, R27, R80). -/
abbrev Word := BitVec 16

/-- A register number, a 4-bit field of which every value is legal (R82). -/
abbrev Reg := Fin 16

/-- The immediate `nnn`, an unsigned 12-bit byte address (R82). -/
abbrev Imm12 := BitVec 12

end Sys2Proof
end

