-- ==== Sys2Proof/Syntax.lean ====
section
/-!
DEFINITION. The instructions: one constructor per row of spec/opcode_table.json (R86), in the table's order, with the
operand fields of R11 and R82.
-/
namespace Sys2Proof

/-- The 34 operations of R86. `x`, `y` are register numbers, `kk` the low byte, `nnn` the low 12 bits, `n` the low
nibble (a row count, kept as a number and bounded by `Instr.WellFormed`). -/
inductive Instr where
  /-- `00E0` CLS -/
  | cls
  /-- `00EE` RET -/
  | ret
  /-- `1nnn` JP nnn -/
  | jp (nnn : Imm12)
  /-- `2nnn` CALL nnn -/
  | call (nnn : Imm12)
  /-- `3xkk` SE Vx, kk -/
  | seByte (x : Reg) (kk : Byte)
  /-- `4xkk` SNE Vx, kk -/
  | sneByte (x : Reg) (kk : Byte)
  /-- `5xy0` SE Vx, Vy -/
  | seReg (x y : Reg)
  /-- `9xy0` SNE Vx, Vy -/
  | sneReg (x y : Reg)
  /-- `6xkk` LD Vx, kk -/
  | ldByte (x : Reg) (kk : Byte)
  /-- `7xkk` ADD Vx, kk -/
  | addByte (x : Reg) (kk : Byte)
  /-- `8xy0` LD Vx, Vy -/
  | ldReg (x y : Reg)
  /-- `8xy1` OR Vx, Vy -/
  | orReg (x y : Reg)
  /-- `8xy2` AND Vx, Vy -/
  | andReg (x y : Reg)
  /-- `8xy3` XOR Vx, Vy -/
  | xorReg (x y : Reg)
  /-- `8xy4` ADD Vx, Vy -/
  | addReg (x y : Reg)
  /-- `8xy5` SUB Vx, Vy -/
  | subReg (x y : Reg)
  /-- `8xy6` SHR Vx; `y` is encoded and not used (R159) -/
  | shr (x y : Reg)
  /-- `8xy7` SUBN Vx, Vy -/
  | subnReg (x y : Reg)
  /-- `8xyE` SHL Vx; `y` is encoded and not used (R161) -/
  | shl (x y : Reg)
  /-- `Annn` LD I, nnn -/
  | ldI (nnn : Imm12)
  /-- `Bnnn` JP V0, nnn -/
  | jpV0 (nnn : Imm12)
  /-- `Cxkk` RND Vx, kk -/
  | rnd (x : Reg) (kk : Byte)
  /-- `Dxyn` DRW Vx, Vy, n -/
  | drw (x y : Reg) (n : Nat)
  /-- `Ex9E` SKP Vx -/
  | skp (x : Reg)
  /-- `ExA1` SKNP Vx -/
  | sknp (x : Reg)
  /-- `Fx07` LD Vx, DT -/
  | ldVxDT (x : Reg)
  /-- `Fx0A` LD Vx, K -/
  | ldVxK (x : Reg)
  /-- `Fx15` LD DT, Vx -/
  | ldDTVx (x : Reg)
  /-- `Fx18` LD ST, Vx -/
  | ldSTVx (x : Reg)
  /-- `Fx1E` ADD I, Vx -/
  | addI (x : Reg)
  /-- `Fx29` LD F, Vx -/
  | ldF (x : Reg)
  /-- `Fx33` LD B, Vx -/
  | ldB (x : Reg)
  /-- `Fx55` LD [I], Vx -/
  | store (x : Reg)
  /-- `Fx65` LD Vx, [I] -/
  | load (x : Reg)
  deriving DecidableEq, Repr

end Sys2Proof
end

