-- ==== Sys2Proof/Config.lean ====
section
/-!
DEFINITION. What the hardware fixes for all runs (the parameters of spec/00_scope.md R5), and the values the spec
leaves open: those are opaque constants without a body, so that no proof can see what they are.
-/
namespace Sys2Proof.Config

/-! ## Parameters with the value the spec gives them (R5) -/

/-- `MEM_SIZE`: bytes of memory. -/
@[simp] abbrev memSize : Nat := 4096

/-- `MEM_SIZE - 1` = 0xFFF, the last valid address (R56). -/
@[simp] abbrev maxAddr : Nat := 0xFFF

/-- `LOAD_ADDR`: where a program image is loaded, and the entry point. -/
@[simp] abbrev loadAddr : Nat := 0x200

/-- `FONT_BASE`: address of the font table. -/
@[simp] abbrev fontBase : Nat := 0x050

/-- `FONT_GLYPH_BYTES`: bytes per glyph. -/
@[simp] abbrev glyphBytes : Nat := 5

/-- `STACK_DEPTH`: return addresses the call stack holds. -/
@[simp] abbrev stackDepth : Nat := 16

/-- `FB_H`: rows of the frame buffer. -/
@[simp] abbrev fbRows : Nat := 32

/-- `FB_W`: columns of the frame buffer. -/
@[simp] abbrev fbCols : Nat := 64

/-- `SPRITE_W`: pixels per sprite row. -/
@[simp] abbrev spriteWidth : Nat := 8

/-- `INSTR_BYTES`: bytes per instruction. -/
@[simp] abbrev instrBytes : Nat := 2

/-- `FONT_DATA`: the 80 font bytes of R33, one line per glyph 0 to F.
PRESUMED by the spec itself (conventional font, from general knowledge, D13), log 7. -/
def fontData : List Byte :=
  [0xF0, 0x90, 0x90, 0x90, 0xF0,
   0x20, 0x60, 0x20, 0x20, 0x70,
   0xF0, 0x10, 0xF0, 0x80, 0xF0,
   0xF0, 0x10, 0xF0, 0x10, 0xF0,
   0x90, 0x90, 0xF0, 0x10, 0x10,
   0xF0, 0x80, 0xF0, 0x10, 0xF0,
   0xF0, 0x80, 0xF0, 0x90, 0xF0,
   0xF0, 0x10, 0x20, 0x40, 0x40] ++
  [0xF0, 0x90, 0xF0, 0x90, 0xF0,
   0xF0, 0x90, 0xF0, 0x10, 0xF0,
   0xF0, 0x90, 0xF0, 0x90, 0x90,
   0xE0, 0x90, 0xE0, 0x90, 0xE0,
   0xF0, 0x80, 0x80, 0x80, 0xF0,
   0xE0, 0x90, 0x90, 0x90, 0xE0,
   0xF0, 0x80, 0xF0, 0x80, 0xF0,
   0xF0, 0x80, 0xF0, 0x80, 0x80]

/-! ## Values the spec leaves open -/

/-- `TICK_PER_CYCLE` (R5, R113, D2: OPEN): whether every completed cycle ends with a timer tick. Log 3. -/
opaque tickPerCycle : Bool

/-- The random byte the host supplies with the `n`-th completed cycle (R165, D12: unconstrained). Log 2. -/
opaque randomByte : Nat → Byte

/-- What the opcode latch holds after the `n`-th completed cycle (R34, D27: unspecified). Log 4. -/
opaque staleOpcode : Nat → Word

end Sys2Proof.Config
end

