-- ==== Sys2Proof/Machine/State.lean ====
section
/-!
DEFINITION. The state of the core (spec/10_state.md R20: "The complete state of the core is the following, and nothing
else"), plus the model's own three fields for the inputs and outputs of a cycle; the reasons a step can stop; the state
after reset (R37).
-/
namespace Sys2Proof.Machine

/-- Memory: the bytes that differ from what an unlisted address reads as, sorted by address (log 5).
`Memory.wf` in Machine/Ops.lean is its canonical form. -/
abbrev Memory := List Host.Cell

/-- The frame buffer `fb[r][c]`: 32 rows of 64 pixels, `true` is on (R31). -/
abbrev FrameBuffer := Vector (Vector Bool 64) 32

/-- One record of the diagnostic side channel (R232, D18). -/
structure Diagnostic where
  /-- the unrecognised word -/
  word : Word
  /-- the address it was fetched from -/
  addr : Word
  deriving DecidableEq, Repr

/-- All the state of the core (R20), then the model's own fields. -/
structure State where
  /-- `V[0]` to `V[15]` (R21, R22) -/
  V : Vector Byte 16
  /-- the index register (R26) -/
  I : Word
  /-- the program counter (R23) -/
  pc : Word
  /-- the stack pointer, the number of return addresses held, 0 to 16 (R27) -/
  sp : Fin 17
  /-- the call stack's slots (R27) -/
  stack : Vector Word 16
  /-- the delay timer (R29) -/
  DT : Byte
  /-- the sound timer (R29) -/
  ST : Byte
  /-- the keypad snapshot, `true` is pressed (R30) -/
  key : Vector Bool 16
  /-- the frame buffer (R31) -/
  fb : FrameBuffer
  /-- memory (R32) -/
  mem : Memory
  /-- the current opcode, held from the fetch to the end of the cycle (R34) -/
  opcode : Word
  /-- MODEL FIELD: the byte supplied with the current `Cycle(rnd)` (R108, R165), log 2 -/
  rnd : Byte
  /-- MODEL FIELD: completed cycles, the index of the free values, log 2 -/
  cycles : Nat
  /-- MODEL FIELD: the records the side channel has carried so far, newest first (R232), log 6 -/
  diags : List Diagnostic
  deriving DecidableEq, Repr

/-- What a fault reports: the record `(a, w, aux)` of R225 (D6). -/
structure FaultInfo where
  /-- `a`: the address of the instruction, the value of `pc` before and after the cycle -/
  addr : Word
  /-- `w`: the fetched word, absent for a faulting fetch -/
  word : Option Word
  /-- `aux`: per R221 -/
  aux : Nat
  deriving DecidableEq, Repr

/-- The five faults of R221. A fault ends the cycle and the state stays what it was before the cycle (R224): the
outcome therefore carries the record alone. -/
inductive Fault where
  /-- Code 1. Raised by the fetch of every cycle when `pc > 0xFFE` (R222). Safe: the spec's own fault. -/
  | fetchOutOfBounds (info : FaultInfo)
  /-- Code 2. Raised by `Dxyn`, `Fx33`, `Fx55`, `Fx65` when an address of the access is above 0xFFF (R223).
  Safe: the spec's own fault. -/
  | memoryOutOfBounds (info : FaultInfo)
  /-- Code 3. Raised by `2nnn` when `sp = 16` (R227). Safe: the spec's own fault. -/
  | stackOverflow (info : FaultInfo)
  /-- Code 4. Raised by `00EE` when `sp = 0` (R228). Safe: the spec's own fault. -/
  | stackUnderflow (info : FaultInfo)
  /-- Code 5. Raised by `Ex9E` and `ExA1` when `V[x] > 15` (R226, D7). Safe: the spec's own fault. -/
  | keyIndexOutOfRange (info : FaultInfo)
  deriving DecidableEq, Repr

/-- Why a step can have no meaning. -/
inductive Refusal where
  /-- Raised only by an arm of `exec` whose instruction has no meaning yet; every instruction has one, so no step
  answers it. Safe: the model stops. -/
  | notModelled (mnemonic : String)
  deriving DecidableEq, Repr

/-- What a handler or a cycle answers. -/
abbrev Result := Host.Outcome State Fault Refusal

/-- Every pixel off. -/
def FrameBuffer.blank : FrameBuffer := Vector.replicate 32 (Vector.replicate 64 false)

/-- The state after `Reset` (R37, R101). Memory lists nothing: an unlisted address reads as its reset contents, zero or
font (log 5). `rnd`, `cycles`, `diags` are the model's own (DESIGN CHOICE, logs 2 and 6). -/
def State.reset : State where
  V := Vector.replicate 16 0
  I := 0
  pc := BitVec.ofNat 16 Config.loadAddr
  sp := 0
  stack := Vector.replicate 16 0
  DT := 0
  ST := 0
  key := Vector.replicate 16 false
  fb := FrameBuffer.blank
  mem := []
  opcode := 0
  rnd := 0
  cycles := 0
  diags := []

end Sys2Proof.Machine
end

