-- ==== Sys2Proof/Machine/Ops.lean ====
section
/-!
DEFINITION. The named operations over registers, memory, stack, timers and frame buffer, and raising a fault. Every
handler is written over these.
-/
namespace Sys2Proof.Machine

/-! ## Memory (R32, R50 to R58) -/

/-- What an address that memory does not list reads as: its contents after reset (R37), the font inside
0x050 to 0x09F and zero elsewhere. -/
def Memory.blank (a : Nat) : Byte :=
  if Config.fontBase ≤ a then Config.fontData.getD (a - Config.fontBase) 0 else 0

/-- The byte at address `a` (R54: the byte last written there). -/
def Memory.byte : Memory → Nat → Byte
  | [], a => Memory.blank a
  | (b, v) :: m, a => if a = b then v else Memory.byte m a

/-- Memory without an entry for `a`. -/
def Memory.erase (m : Memory) (a : Nat) : Memory := m.filter (fun c => c.1 != a)

/-- Insert an entry before the first larger address. -/
def Memory.insert : Memory → Nat → Byte → Memory
  | [], a, v => [(a, v)]
  | (b, w) :: m, a, v => if a < b then (a, v) :: (b, w) :: m else (b, w) :: Memory.insert m a v

/-- Write one byte, keeping the canonical form: writing what an unlisted address reads as removes the entry. -/
def Memory.put (m : Memory) (a : Nat) (v : Byte) : Memory :=
  if v = Memory.blank a then m.erase a else (m.erase a).insert a v

/-- Write bytes at `a`, `a + 1`, ... -/
def Memory.putBytes : Memory → Nat → List Byte → Memory
  | m, _, [] => m
  | m, a, b :: bs => Memory.putBytes (m.put a b) (a + 1) bs

/-- The `n` bytes at `a`, `a + 1`, ... -/
def Memory.bytes (m : Memory) (a : Nat) : Nat → List Byte
  | 0 => []
  | n + 1 => m.byte a :: m.bytes (a + 1) n

/-- The canonical form: addresses strictly rising and inside memory, no entry equal to what an unlisted address reads
as. Equal memories are then equal lists. -/
abbrev Memory.wf (m : Memory) : Prop :=
  m.Pairwise (fun p q => p.1 < q.1) ∧ ∀ c ∈ m, c.1 ≤ Config.maxAddr ∧ c.2 ≠ Memory.blank c.1

/-- Every address of an access of `n` bytes at `base` is valid (R56, R57: no wrap-around; an empty access always is,
R196). -/
def inBounds (base n : Nat) : Bool := n == 0 || decide (base + n ≤ Config.memSize)

/-- The lowest invalid address of an access at `base` that is not in bounds (R58, R221). -/
def lowestInvalid (base : Nat) : Nat := max base Config.memSize

/-! ## Registers (R21, R23, R26, R29) -/

/-- `V[x]`. -/
def State.reg (s : State) (x : Reg) : Byte := s.V[x]

/-- `V[x] <- v`. No register is hardwired (R21). -/
def State.setV (s : State) (x : Reg) (v : Byte) : State := { s with V := s.V.set x.val v x.isLt }

/-- VF, V register 15 (R22). -/
def regVF : Reg := 15

/-- `I <- v`. -/
def State.setI (s : State) (v : Word) : State := { s with I := v }

/-- `pc <- v`. -/
def State.setPc (s : State) (v : Word) : State := { s with pc := v }

/-- `DT <- v`. -/
def State.setDT (s : State) (v : Byte) : State := { s with DT := v }

/-- `ST <- v`. -/
def State.setST (s : State) (v : Byte) : State := { s with ST := v }

/-- Replace the frame buffer. -/
def State.setFb (s : State) (fb : FrameBuffer) : State := { s with fb := fb }

/-- Replace the memory. -/
def State.setMem (s : State) (m : Memory) : State := { s with mem := m }

/-- Replace the keypad snapshot (R106). -/
def State.setKey (s : State) (k : Vector Bool 16) : State := { s with key := k }

/-- `V[i] <- mem[base + i]` for `i` from 0 to `n - 1` (R180). -/
def State.loadRegs (s : State) (base : Nat) : Nat → State
  | 0 => s
  | n + 1 =>
    if h : n < 16 then (s.loadRegs base n).setV ⟨n, h⟩ (s.mem.byte (base + n)) else s.loadRegs base n

/-- V0 to Vx (R178). -/
def State.regsTo (s : State) (x : Reg) : List Byte := s.V.toList.take (x.val + 1)

/-! ## Call stack (R27) -/

/-- Push a return address, unless 16 are held. -/
def State.push? (s : State) (v : Word) : Option State :=
  if h : s.sp.val < 16 then
    some { s with stack := s.stack.set s.sp.val v h, sp := ⟨s.sp.val + 1, by omega⟩ }
  else none

/-- Pop a return address, unless none is held. The slot keeps its value (D14). -/
def State.pop? (s : State) : Option (Word × State) :=
  if h : 0 < s.sp.val then
    some (s.stack[s.sp.val - 1]'(by omega), { s with sp := ⟨s.sp.val - 1, by omega⟩ })
  else none

/-! ## Timers (R29, R113, R120) -/

/-- One decrement toward zero, never below. -/
def decay (t : Byte) : Byte := if t = 0 then 0 else t - 1

/-- `TimerTick()` (R120), done when `on`. -/
def State.tickIf (s : State) (on : Bool) : State :=
  { s with DT := if on then decay s.DT else s.DT, ST := if on then decay s.ST else s.ST }

/-! ## Faults and diagnostics (R221 to R232) -/

/-- `a`, the address of the instruction whose handler runs: on entry `pc = a + 2` (R110). -/
def State.instrAddr (s : State) : Word := s.pc - BitVec.ofNat 16 Config.instrBytes

/-- `raise K(info)` from a handler: taking an exception on this hardware. There is no trap entry: no register is saved,
no mode changes, control goes nowhere inside the core (R233); the cycle ends with the record and the state before it
stands (R224, R225). There is no return from a fault (R234). -/
def raise (kind : FaultInfo → Fault) (aux : Nat) (s : State) : Result :=
  .fault (kind ⟨s.instrAddr, some s.opcode, aux⟩)

/-- The record of a fault (R225). -/
def Fault.info : Fault → FaultInfo
  | .fetchOutOfBounds i | .memoryOutOfBounds i | .stackOverflow i | .stackUnderflow i | .keyIndexOutOfRange i => i

/-- The numeric code of a fault (R221, D6). -/
def Fault.code : Fault → Nat
  | .fetchOutOfBounds _ => 1
  | .memoryOutOfBounds _ => 2
  | .stackOverflow _ => 3
  | .stackUnderflow _ => 4
  | .keyIndexOutOfRange _ => 5

/-- `diag(w, a)`: one record on the side channel; changes no architectural state (R232). -/
def State.report (s : State) : State := { s with diags := ⟨s.opcode, s.instrAddr⟩ :: s.diags }

/-- Change the next state of an outcome and nothing of a fault or a refusal. -/
def mapNext (f : State → State) : Result → Result
  | .next s => .next (f s)
  | .fault r => .fault r
  | .refused r => .refused r

/-! ## Drawing (R192 to R196) -/

/-- A frame buffer being drawn on, and whether a pixel has gone from on to off. -/
structure Canvas where
  fb : FrameBuffer
  collision : Bool
  deriving DecidableEq, Repr

/-- A set sprite bit at row `r`, column `c`: discarded off the right or bottom edge (R194), else it toggles the pixel
and collides if the pixel was on (R195). -/
def Canvas.plot (d : Canvas) (r c : Nat) : Canvas :=
  if h : r < 32 ∧ c < 64 then
    { fb := d.fb.set r ((d.fb[r]'h.1).set c (!(d.fb[r]'h.1)[c]'h.2) h.2) h.1
      collision := d.collision || (d.fb[r]'h.1)[c]'h.2 }
  else d

/-- The first `k` bits of one sprite row at row `r` from column `c`: bit 7 is the first column (R193). -/
def Canvas.plotBits (d : Canvas) (r c : Nat) (bits : Byte) : Nat → Canvas
  | 0 => d
  | k + 1 =>
    if bits.getLsbD (7 - k) then (d.plotBits r c bits k).plot r (c + k) else d.plotBits r c bits k

/-- The rows of a sprite from row `r`, column `c` (R192). -/
def Canvas.plotRows (d : Canvas) (r c : Nat) : List Byte → Canvas
  | [] => d
  | b :: bs => (d.plotBits r c b Config.spriteWidth).plotRows (r + 1) c bs

/-! ## Where the host's word goes -/

/-- Write a byte where memory exists; outside, nothing (no such address can be fetched from). -/
def State.placeByte (s : State) (a : Nat) (v : Byte) : State :=
  if a ≤ Config.maxAddr then s.setMem (s.mem.put a v) else s

/-- `s` with the word `w` at `pc`, big-endian (R51). -/
def State.placeWord (s : State) (w : Word) : State :=
  (s.placeByte s.pc.toNat (highByte w)).placeByte (s.pc.toNat + 1) (lowByte w)

end Sys2Proof.Machine
end

