-- ==== Sys2Proof/Machine/Operands.lean ====
section
/-!
DEFINITION. The operand forms: immediates (spec/30_encoding.md R82), the one data addressing mode (spec/43 R182), the
keypad index (spec/45 R208), and the skip (spec/41 R139).
-/
namespace Sys2Proof.Machine

/-- `zext_16(nnn)` (R82). -/
def addrOfImm (nnn : Imm12) : Word := nnn.setWidth 16

/-- `zext_16` of a register value (R138, R172). -/
def wordOfByte (b : Byte) : Word := b.setWidth 16

/-- `EA(i) = I + i`, a natural number, never reduced (R57, R182). -/
def State.ea (s : State) (i : Nat) : Nat := s.I.toNat + i

/-- `FONT_BASE + 5 * V[x]` with the whole byte, no mask (R174, D8). -/
def fontAddr (v : Byte) : Word := BitVec.ofNat 16 (Config.fontBase + Config.glyphBytes * v.toNat)

/-- The three decimal digits of a byte, one per byte, hundreds first (R176). -/
def bcdDigits (v : Byte) : List Byte :=
  [BitVec.ofNat 8 (v.toNat / 100), BitVec.ofNat 8 (v.toNat / 10 % 10), BitVec.ofNat 8 (v.toNat % 10)]

/-- Slot `k` of the keypad, if there is one (R208: `k > 15` names no slot). -/
def State.keyAt? (s : State) (k : Byte) : Option Bool :=
  if h : k.toNat < 16 then some (s.key[k.toNat]'h) else none

/-- The 16 key numbers, lowest first. -/
def allKeys : List Reg := [0, 1, 2, 3, 4, 5, 6, 7, 8, 9, 10, 11, 12, 13, 14, 15]

/-- The lowest-numbered pressed key (R204). -/
def State.lowestKey? (s : State) : Option Reg := allKeys.find? (fun k => s.key[k])

/-- Skip the next instruction if `c`: `pc <- pc + 2` on top of the advance (R139). -/
def State.skipIf (s : State) (c : Bool) : State :=
  { s with pc := if c then s.pc + BitVec.ofNat 16 Config.instrBytes else s.pc }

end Sys2Proof.Machine
end

