-- ==== Sys2Proof/Machine/Flags.lean ====
section
/-!
DEFINITION. Every flag computation (spec/10_state.md R22, spec/42 R157 to R163): VF is the only flag. Operands become
numbers, the exact result is computed, and it is narrowed at the end (R162).
-/
namespace Sys2Proof.Machine

/-- A flag as a byte: 1 or 0. -/
def flagByte (b : Bool) : Byte := if b then 1 else 0

/-- `V <- flag` (R22). -/
def State.setVF (s : State) (v : Byte) : State := s.setV regVF v

/-- The wrapped sum `(a + b) mod 256` (R162). -/
def sumByte (a b : Byte) : Byte := BitVec.ofNat 8 (a.toNat + b.toNat)

/-- The carry: 1 if the unwrapped sum is above 255 (R157). -/
def carryFlag (a b : Byte) : Byte := flagByte (decide (a.toNat + b.toNat > 255))

/-- The wrapped difference `(a - b) mod 256` (R162). -/
def diffByte (a b : Byte) : Byte := BitVec.ofInt 8 ((a.toNat : Int) - (b.toNat : Int))

/-- 1 if the minuend is strictly greater (R158, R160, C5: 0 when equal). -/
def greaterFlag (a b : Byte) : Byte := flagByte (decide (a.toNat > b.toNat))

/-- Bit 0, the bit a right shift loses (R159). -/
def lowBit (a : Byte) : Byte := a &&& 1

/-- Bit 7, the bit a left shift loses (R161). -/
def highBit (a : Byte) : Byte := (a &&& 0x80) >>> 7

/-- Write a result, then the flag: the order of `8xy4`, `8xy5`, `8xy7` (R163, D11). -/
def State.setVThenVF (s : State) (x : Reg) (v flag : Byte) : State := (s.setV x v).setVF flag

end Sys2Proof.Machine
end

