-- ==== Sys2Proof/Machine/ControlFlow.lean ====
section
/-!
DEFINITION. The handlers of spec/41_control_flow.md. On entry `pc` holds `a + 2` (R110, R130).
-/
namespace Sys2Proof.Machine

/-- `00EE` (R131). -/
def execRet (s : State) : Result :=
  match s.pop? with
  | none => raise .stackUnderflow 0 s
  | some (target, s') => .next (s'.setPc target)

/-- `1nnn` (R132). -/
def execJp (nnn : Imm12) (s : State) : Result := .next (s.setPc (addrOfImm nnn))

/-- `2nnn` (R133): the pushed `pc` is the address after the call. -/
def execCall (nnn : Imm12) (s : State) : Result :=
  match s.push? s.pc with
  | none => raise .stackOverflow 0 s
  | some s' => .next (s'.setPc (addrOfImm nnn))

/-- `3xkk` (R134). -/
def execSeByte (x : Reg) (kk : Byte) (s : State) : Result := .next (s.skipIf (s.reg x == kk))

/-- `4xkk` (R135). -/
def execSneByte (x : Reg) (kk : Byte) (s : State) : Result := .next (s.skipIf (s.reg x != kk))

/-- `5xy0` (R136). -/
def execSeReg (x y : Reg) (s : State) : Result := .next (s.skipIf (s.reg x == s.reg y))

/-- `9xy0` (R137). -/
def execSneReg (x y : Reg) (s : State) : Result := .next (s.skipIf (s.reg x != s.reg y))

/-- `Bnnn` (R138): at most 0x10FE, not masked (D17). -/
def execJpV0 (nnn : Imm12) (s : State) : Result := .next (s.setPc (wordOfByte (s.reg 0) + addrOfImm nnn))

end Sys2Proof.Machine
end

