-- ==== Sys2Proof/Machine/Display.lean ====
section
/-!
DEFINITION. The handlers of spec/44_display.md, the only instructions that change the frame buffer (R190).
-/
namespace Sys2Proof.Machine

/-- `00E0` (R191). -/
def execCls (s : State) : Result := .next (s.setFb FrameBuffer.blank)

/-- `Dxyn` (R192): position from the registers as they were, all `n` bytes checked (R196, D10), then drawn with
clipping, VF last. -/
def execDrw (x y : Reg) (n : Nat) (s : State) : Result :=
  if inBounds (s.ea 0) n then
    let d := Canvas.plotRows ⟨s.fb, false⟩ ((s.reg y).toNat % Config.fbRows) ((s.reg x).toNat % Config.fbCols)
      (s.mem.bytes (s.ea 0) n)
    .next ((s.setFb d.fb).setVF (flagByte d.collision))
  else raise .memoryOutOfBounds (lowestInvalid (s.ea 0)) s

end Sys2Proof.Machine
end

