-- ==== Sys2Proof/Machine/IndexMemory.lean ====
section
/-!
DEFINITION. The handlers of spec/43_index_memory.md. An access is checked as a whole before any byte moves (R58, D5)
and never changes `I` (R182, D24).
-/
namespace Sys2Proof.Machine

/-- `Annn` (R171). -/
def execLdI (nnn : Imm12) (s : State) : Result := .next (s.setI (addrOfImm nnn))

/-- `Fx1E` (R172): modulo 65536, no flag, no fault (D8). -/
def execAddI (x : Reg) (s : State) : Result := .next (s.setI (s.I + wordOfByte (s.reg x)))

/-- `Fx29` (R174). -/
def execLdF (x : Reg) (s : State) : Result := .next (s.setI (fontAddr (s.reg x)))

/-- `Fx33` (R176): hundreds, tens, ones at `I`, `I + 1`, `I + 2`. -/
def execLdB (x : Reg) (s : State) : Result :=
  if inBounds (s.ea 0) 3 then .next (s.setMem (s.mem.putBytes (s.ea 0) (bcdDigits (s.reg x))))
  else raise .memoryOutOfBounds (lowestInvalid (s.ea 0)) s

/-- `Fx55` (R178): V0 to Vx at `I` to `I + x`. -/
def execStore (x : Reg) (s : State) : Result :=
  if inBounds (s.ea 0) (x.val + 1) then .next (s.setMem (s.mem.putBytes (s.ea 0) (s.regsTo x)))
  else raise .memoryOutOfBounds (lowestInvalid (s.ea 0)) s

/-- `Fx65` (R180): V0 to Vx from `I` to `I + x`. -/
def execLoad (x : Reg) (s : State) : Result :=
  if inBounds (s.ea 0) (x.val + 1) then .next (s.loadRegs (s.ea 0) (x.val + 1))
  else raise .memoryOutOfBounds (lowestInvalid (s.ea 0)) s

end Sys2Proof.Machine
end

