-- ==== Sys2Proof/Machine/KeypadTimers.lean ====
section
/-!
DEFINITION. The handlers of spec/45_keypad_timers.md. The keypad snapshot is read-only to all of them (R200).
-/
namespace Sys2Proof.Machine

/-- `Ex9E` (R201): a key index above 15 faults (R208, D7). -/
def execSkp (x : Reg) (s : State) : Result :=
  match s.keyAt? (s.reg x) with
  | none => raise .keyIndexOutOfRange (s.reg x).toNat s
  | some down => .next (s.skipIf down)

/-- `ExA1` (R202): a key index above 15 faults (R208, D7). -/
def execSknp (x : Reg) (s : State) : Result :=
  match s.keyAt? (s.reg x) with
  | none => raise .keyIndexOutOfRange (s.reg x).toNat s
  | some down => .next (s.skipIf (!down))

/-- `Fx07` (R203). -/
def execLdVxDT (x : Reg) (s : State) : Result := .next (s.setV x s.DT)

/-- `Fx0A` (R204): no key down, back to this instruction; else the lowest pressed key. -/
def execLdVxK (x : Reg) (s : State) : Result :=
  match s.lowestKey? with
  | none => .next (s.setPc s.instrAddr)
  | some k => .next (s.setV x (BitVec.ofNat 8 k.val))

/-- `Fx15` (R205). -/
def execLdDTVx (x : Reg) (s : State) : Result := .next (s.setDT (s.reg x))

/-- `Fx18` (R206). -/
def execLdSTVx (x : Reg) (s : State) : Result := .next (s.setST (s.reg x))

end Sys2Proof.Machine
end

