-- ==== Sys2Proof/Machine/RegisterAlu.lean ====
section
/-!
DEFINITION. The handlers of spec/42_register_alu.md. None faults and none touches `pc` after the advance (R150).
-/
namespace Sys2Proof.Machine

/-- `6xkk` (R151). -/
def execLdByte (x : Reg) (kk : Byte) (s : State) : Result := .next (s.setV x kk)

/-- `7xkk` (R152): VF is unaffected. -/
def execAddByte (x : Reg) (kk : Byte) (s : State) : Result := .next (s.setV x (sumByte (s.reg x) kk))

/-- `8xy0` (R153). -/
def execLdReg (x y : Reg) (s : State) : Result := .next (s.setV x (s.reg y))

/-- `8xy1` (R154): VF is not written. -/
def execOrReg (x y : Reg) (s : State) : Result := .next (s.setV x (s.reg x ||| s.reg y))

/-- `8xy2` (R155): VF is not written. -/
def execAndReg (x y : Reg) (s : State) : Result := .next (s.setV x (s.reg x &&& s.reg y))

/-- `8xy3` (R156): VF is not written. -/
def execXorReg (x y : Reg) (s : State) : Result := .next (s.setV x (s.reg x ^^^ s.reg y))

/-- `8xy4` (R157): the sum, then the carry. -/
def execAddReg (x y : Reg) (s : State) : Result :=
  .next (s.setVThenVF x (sumByte (s.reg x) (s.reg y)) (carryFlag (s.reg x) (s.reg y)))

/-- `8xy5` (R158): the difference, then the flag. -/
def execSubReg (x y : Reg) (s : State) : Result :=
  .next (s.setVThenVF x (diffByte (s.reg x) (s.reg y)) (greaterFlag (s.reg x) (s.reg y)))

/-- `8xy6` (R159): VF first, then `V[x]` read again and shifted; `y` is not used. -/
def execShr (x _y : Reg) (s : State) : Result :=
  let s' := s.setVF (lowBit (s.reg x))
  .next (s'.setV x (s'.reg x >>> 1))

/-- `8xy7` (R160): the reverse difference, then the flag. -/
def execSubnReg (x y : Reg) (s : State) : Result :=
  .next (s.setVThenVF x (diffByte (s.reg y) (s.reg x)) (greaterFlag (s.reg y) (s.reg x)))

/-- `8xyE` (R161): VF first, then `V[x]` read again and shifted; `y` is not used. -/
def execShl (x _y : Reg) (s : State) : Result :=
  let s' := s.setVF (highBit (s.reg x))
  .next (s'.setV x (s'.reg x <<< 1))

/-- `Cxkk` (R165): the cycle's random byte, masked. -/
def execRnd (x : Reg) (kk : Byte) (s : State) : Result := .next (s.setV x (s.rnd &&& kk))

end Sys2Proof.Machine
end

