-- ==== Sys2Proof/Machine/Cycle.lean ====
section
/-!
DEFINITION. One cycle: fetch, advance, decode, dispatch, timer tick (spec/40_cycle_engine.md R108 to R114).
-/
namespace Sys2Proof.Machine

/-- Step 1 (R109): the big-endian word at `pc`, `pc + 1`, or the fault with the lowest invalid address (R222). -/
def fetch (s : State) : Except Fault Word :=
  if s.pc.toNat + 1 ≤ Config.maxAddr then
    .ok (wordOfBytes (s.mem.byte s.pc.toNat) (s.mem.byte (s.pc.toNat + 1)))
  else .error (.fetchOutOfBounds ⟨s.pc, none, lowestInvalid s.pc.toNat⟩)

/-- What a handler finds (R108, R110): the latch holds `w`, the input is `rnd`, `pc` is advanced by 2. -/
def enter (w : Word) (rnd : Byte) (s : State) : State :=
  { s with opcode := w, rnd := rnd, pc := s.pc + BitVec.ofNat 16 Config.instrBytes }

/-- The end of a completed cycle: step 5, the tick, when `tick` (R113); the latch is left with an unspecified value
(R34, D27); the model counts the cycle. -/
def endCycle (tick : Bool) (s : State) : State :=
  { s.tickIf tick with opcode := Config.staleOpcode s.cycles, cycles := s.cycles + 1 }

/-- Steps 3 and 4 for the fetched word, on the state a handler finds: the handler of the operation, or for an
unrecognised word a diagnostic and no other effect (R88, R111, R112). -/
def dispatch (w : Word) (s : State) : Result :=
  match decode w with
  | .ok i => exec i s
  | .error _ => .next s.report

/-- `Cycle(rnd)` with `TICK_PER_CYCLE = tick` (R108). A fault ends the cycle and leaves no next state: the state before
it stands, without advance and without tick (R224). -/
def cycle (tick : Bool) (rnd : Byte) (s : State) : Result :=
  match fetch s with
  | .error f => .fault f
  | .ok w => mapNext (endCycle tick) (dispatch w (enter w rnd s))

/-- Whether this machine ticks in every cycle: the open parameter (R5, D2). -/
def ticksPerCycle : Bool := Config.tickPerCycle

/-- The byte the host supplies with the next cycle: any byte (R165, D12). -/
def State.nextRandom (s : State) : Byte := Config.randomByte s.cycles

end Sys2Proof.Machine
end

