-- ==== Sys2Proof/Machine/Step.lean ====
section
/-!
DEFINITION. One step of the machine is one `Cycle` (spec/40_cycle_engine.md R108), its random byte a free value and its
tick the open parameter (logs 1, 2, 3).
-/
namespace Sys2Proof.Machine

/-- One `Cycle`. -/
def step (s : State) : Host.Outcome State Fault Refusal := cycle ticksPerCycle s.nextRandom s

/-- `s` with the instruction word `w` (bits numbered as the opcode table numbers them) stored at `pc`, where the next
fetch reads (log 19). -/
def State.withFetchWord (s : State) (nbits w : Nat) : State := s.placeWord (tableWord nbits w)

end Sys2Proof.Machine
end

