-- ==== Sys2Proof/Machine/HostOps.lean ====
section
/-!
DEFINITION. The host's operations (spec/00_scope.md R6, spec/40_cycle_engine.md R100 to R124): each is one atomic
transition of the whole state. That they never overlap (R66) and that the host changes the state by no other means is what
R272 asks of the host (log 22). A schedule is any list of them (R124).
-/
namespace Sys2Proof.Machine

/-- The operations of R6. The diagnostic side channel is part of the response of a cycle. -/
inductive HostOp where
  /-- `Reset` (R101) -/
  | reset
  /-- `Load(img)` (R104) -/
  | load (img : List Byte)
  /-- `SetKeys(k)` (R106) -/
  | setKeys (k : Vector Bool 16)
  /-- `Cycle(rnd)` (R108) -/
  | cycle (rnd : Byte)
  /-- `Tick` (R120) -/
  | tick
  /-- `ReadFrameBuffer` (R122) -/
  | readFrameBuffer
  /-- `ReadTimers` (R122) -/
  | readTimers
  deriving DecidableEq, Repr

/-- What an operation returns to the host. -/
inductive Response where
  /-- nothing to report: `Reset`, `SetKeys`, `Tick`, and an accepted `Load` -/
  | ok
  /-- a `Load` whose image does not fit (R229) -/
  | loadTooLarge
  /-- a completed cycle, with the diagnostic it emitted, if any (R114) -/
  | cycleOk (diag : Option Diagnostic)
  /-- a cycle that raised a fault (R225) -/
  | cycleFault (f : Fault)
  /-- a cycle the model refuses; never answered, since every instruction has a meaning -/
  | cycleRefused (r : Refusal)
  /-- the pixels (R122) -/
  | frame (fb : FrameBuffer)
  /-- `(DT, ST)` (R122) -/
  | timers (dt st : Byte)
  deriving DecidableEq, Repr

/-- `Reset` (R101): the reset state, whatever went before. The model's own fields go on (log 13): the random bytes to
come are no repetition of those that came, and what the side channel carried stays said. -/
def State.resetOp (s : State) : State :=
  { State.reset with rnd := s.rnd, cycles := s.cycles, diags := s.diags }

/-- `Load(img)` (R104): refused as a whole when it does not fit; else the bytes from 0x200 and `pc`, nothing else. -/
def State.loadImage? (s : State) (img : List Byte) : Option State :=
  if Config.loadAddr + img.length > Config.memSize then none
  else some ((s.setMem (s.mem.putBytes Config.loadAddr img)).setPc (BitVec.ofNat 16 Config.loadAddr))

/-- The diagnostic a completed cycle from `s` to `t` emitted: the newest record, if there is a new one. -/
def newDiagnostic (s t : State) : Option Diagnostic :=
  if s.diags.length < t.diags.length then t.diags.head? else none

/-- One host operation on a core that has been reset: the next state and the response. A faulting cycle leaves the
state as it was (R224). -/
def perform (tick : Bool) (op : HostOp) (s : State) : State × Response :=
  match op with
  | .reset => (s.resetOp, .ok)
  | .load img =>
    match s.loadImage? img with
    | some t => (t, .ok)
    | none => (s, .loadTooLarge)
  | .setKeys k => (s.setKey k, .ok)
  | .cycle rnd =>
    match cycle tick rnd s with
    | .next t => (t, .cycleOk (newDiagnostic s t))
    | .fault f => (s, .cycleFault f)
    | .refused r => (s, .cycleRefused r)
  | .tick => (s.tickIf true, .ok)
  | .readFrameBuffer => (s, .frame s.fb)
  | .readTimers => (s, .timers s.DT s.ST)

/-- One host operation on the core, `none` before the first `Reset`: then only `Reset` has a transition (R262, U8). -/
def hostStep (tick : Bool) (op : HostOp) : Option State → Option (State × Response)
  | some s => some (perform tick op s)
  | none =>
    match op with
    | .reset => some (State.reset, .ok)
    | .load _ | .setKeys _ | .cycle _ | .tick | .readFrameBuffer | .readTimers => none

/-- A schedule of host operations, in order: the last state and the responses (R124). -/
def performAll (tick : Bool) : List HostOp → State → State × List Response
  | [], s => (s, [])
  | op :: ops, s =>
    let (t, r) := perform tick op s
    let (u, rs) := performAll tick ops t
    (u, r :: rs)

end Sys2Proof.Machine
end

