-- ==== Sys2Proof/Safety.lean ====
section
/-!
DEFINITION. What counts as a safe run and a legal state, and the words the claims use to say what an instruction leaves
alone.
-/
namespace Sys2Proof.Machine

/-! ## Legal states -/

/-- What every state a host can bring about satisfies (R25, R27, log 5): memory in its canonical form, `pc` at most
0x10FE, every live return address at most 0x1000. -/
abbrev State.Inv (s : State) : Prop :=
  s.mem.wf ∧ s.pc.toNat ≤ 0x10FE ∧ ∀ j : Fin 16, j.val < s.sp.val → (s.stack[j]).toNat ≤ 0x1000

/-! ## Safe runs -/

/-- A response that a good run may hold: no fault and no diagnostic (R235, U1). -/
def Response.isGood : Response → Bool
  | .ok | .frame _ | .timers _ _ => true
  | .cycleOk diag => diag.isNone
  | .loadTooLarge | .cycleFault _ | .cycleRefused _ => false

/-- A schedule in which every cycle completed without a diagnostic and every load was accepted. -/
def goodRun (tick : Bool) (ops : List HostOp) (s : State) : Bool := (performAll tick ops s).2.all Response.isGood

/-! ## Frames -/

/-- The pieces of state a claim lets change; what is not named stays. -/
structure Parts where
  V : Bool := false
  I : Bool := false
  pc : Bool := false
  stack : Bool := false
  sp : Bool := false
  DT : Bool := false
  ST : Bool := false
  fb : Bool := false
  mem : Bool := false
  deriving DecidableEq, Repr

/-- `t` is `s` except in the named parts. Memory is compared by reading every byte. The keypad, the latch, the input and
the model's own fields always stay. -/
def State.SameBut (p : Parts) (s t : State) : Prop :=
  (p.V = false → t.V = s.V) ∧ (p.I = false → t.I = s.I) ∧ (p.pc = false → t.pc = s.pc) ∧
  (p.stack = false → t.stack = s.stack) ∧ (p.sp = false → t.sp = s.sp) ∧
  (p.DT = false → t.DT = s.DT) ∧ (p.ST = false → t.ST = s.ST) ∧
  (p.fb = false → t.fb = s.fb) ∧ (p.mem = false → ∀ a, t.mem.byte a = s.mem.byte a) ∧
  t.key = s.key ∧ t.opcode = s.opcode ∧ t.rnd = s.rnd ∧ t.cycles = s.cycles ∧ t.diags = s.diags

/-- Every V register that is not in `xs` stays. -/
def State.OtherRegs (xs : List Reg) (s t : State) : Prop := ∀ r : Reg, r ∉ xs → t.V[r] = s.V[r]

end Sys2Proof.Machine

namespace Sys2Proof
open Machine

/-! ## The spec's tables over all instructions, as the claims state them -/

/-- What each instruction may write (R38), `pc` beyond the advance included. -/
def Instr.writes : Instr → Parts
  | .cls => { fb := true }
  | .ret => { pc := true, sp := true }
  | .call _ => { pc := true, stack := true, sp := true }
  | .jp _ | .jpV0 _ | .seByte _ _ | .sneByte _ _ | .seReg _ _ | .sneReg _ _ | .skp _ | .sknp _ => { pc := true }
  | .ldByte _ _ | .addByte _ _ | .ldReg _ _ | .orReg _ _ | .andReg _ _ | .xorReg _ _ | .addReg _ _ | .subReg _ _
  | .shr _ _ | .subnReg _ _ | .shl _ _ | .rnd _ _ | .ldVxDT _ | .load _ => { V := true }
  | .ldVxK _ => { V := true, pc := true }
  | .ldI _ | .addI _ | .ldF _ => { I := true }
  | .drw _ _ _ => { V := true, fb := true }
  | .ldDTVx _ => { DT := true }
  | .ldSTVx _ => { ST := true }
  | .ldB _ | .store _ => { mem := true }

/-- Whether an instruction may write register `r` (R38). -/
def Instr.writesReg (r : Reg) : Instr → Bool
  | .ldByte x _ | .addByte x _ | .ldReg x _ | .orReg x _ | .andReg x _ | .xorReg x _ | .rnd x _ | .ldVxDT x
  | .ldVxK x => r == x
  | .addReg x _ | .subReg x _ | .shr x _ | .subnReg x _ | .shl x _ => r == x || r == regVF
  | .drw _ _ _ => r == regVF
  | .load x => decide (r ≤ x)
  | .cls | .ret | .call _ | .jp _ | .jpV0 _ | .seByte _ _ | .sneByte _ _ | .seReg _ _ | .sneReg _ _ | .skp _
  | .sknp _ | .ldI _ | .addI _ | .ldF _ | .ldDTVx _ | .ldSTVx _ | .ldB _ | .store _ => false

/-- How many bytes an instruction stores, from `EA(0)` upward (R52). -/
def Instr.storedBytes : Instr → Nat
  | .ldB _ => 3
  | .store x => x.val + 1
  | .cls | .ret | .call _ | .jp _ | .jpV0 _ | .seByte _ _ | .sneByte _ _ | .seReg _ _ | .sneReg _ _ | .skp _
  | .sknp _ | .ldI _ | .addI _ | .ldF _ | .ldDTVx _ | .ldSTVx _ | .ldByte _ _ | .addByte _ _ | .ldReg _ _
  | .orReg _ _ | .andReg _ _ | .xorReg _ _ | .addReg _ _ | .subReg _ _ | .shr _ _ | .subnReg _ _ | .shl _ _
  | .rnd _ _ | .ldVxDT _ | .ldVxK _ | .drw _ _ _ | .load _ => 0

/-- The bytes an instruction stores, the first at `EA(0)` (R176, R178). -/
def Instr.storedData (s : State) : Instr → List Byte
  | .ldB x =>
    let v := (s.V[x]).toNat
    [BitVec.ofNat 8 (v / 100), BitVec.ofNat 8 (v / 10 % 10), BitVec.ofNat 8 (v % 10)]
  | .store x => s.V.toList.take (x.val + 1)
  | .cls | .ret | .call _ | .jp _ | .jpV0 _ | .seByte _ _ | .sneByte _ _ | .seReg _ _ | .sneReg _ _ | .skp _
  | .sknp _ | .ldI _ | .addI _ | .ldF _ | .ldDTVx _ | .ldSTVx _ | .ldByte _ _ | .addByte _ _ | .ldReg _ _
  | .orReg _ _ | .andReg _ _ | .xorReg _ _ | .addReg _ _ | .subReg _ _ | .shr _ _ | .subnReg _ _ | .shl _ _
  | .rnd _ _ | .ldVxDT _ | .ldVxK _ | .drw _ _ _ | .load _ => []

/-- What address `a` holds after `i` completed from `s`: the byte stored there, if any, else the byte before (R54). -/
def Instr.byteAfter (s : State) (i : Instr) (a : Nat) : Byte :=
  if s.ea 0 ≤ a then (i.storedData s).getD (a - s.ea 0) (s.mem.byte a) else s.mem.byte a

/-- Whether VF is an instruction's explicit destination, so that it receives the result and no flag (R22). -/
def Instr.targetsVF : Instr → Bool
  | .ldByte x _ | .addByte x _ | .ldReg x _ | .orReg x _ | .andReg x _ | .xorReg x _ | .rnd x _ | .ldVxDT x
  | .ldVxK x | .load x => x == regVF
  | .addReg _ _ | .subReg _ _ | .shr _ _ | .subnReg _ _ | .shl _ _ | .drw _ _ _ | .cls | .ret | .call _ | .jp _
  | .jpV0 _ | .seByte _ _ | .sneByte _ _ | .seReg _ _ | .sneReg _ _ | .skp _ | .sknp _ | .ldI _ | .addI _ | .ldF _
  | .ldDTVx _ | .ldSTVx _ | .ldB _ | .store _ => false

/-- `pc` after a completed cycle that ran `i` from the state `s` before the cycle, whose `pc` is `a` (R24). -/
def Instr.pcAfter (s : State) : Instr → Nat
  | .jp nnn | .call nnn => nnn.toNat
  | .ret => if h : 0 < s.sp.val then (s.stack[s.sp.val - 1]'(by omega)).toNat else 0
  | .jpV0 nnn => (s.V[(0 : Reg)]).toNat + nnn.toNat
  | .seByte x kk => if s.V[x] = kk then s.pc.toNat + 4 else s.pc.toNat + 2
  | .sneByte x kk => if s.V[x] ≠ kk then s.pc.toNat + 4 else s.pc.toNat + 2
  | .seReg x y => if s.V[x] = s.V[y] then s.pc.toNat + 4 else s.pc.toNat + 2
  | .sneReg x y => if s.V[x] ≠ s.V[y] then s.pc.toNat + 4 else s.pc.toNat + 2
  | .skp x => if s.keyAt? s.V[x] = some true then s.pc.toNat + 4 else s.pc.toNat + 2
  | .sknp x => if s.keyAt? s.V[x] = some false then s.pc.toNat + 4 else s.pc.toNat + 2
  | .ldVxK _ => if ∀ k : Reg, s.key[k] = false then s.pc.toNat else s.pc.toNat + 2
  | .cls | .ldByte _ _ | .addByte _ _ | .ldReg _ _ | .orReg _ _ | .andReg _ _ | .xorReg _ _ | .addReg _ _
  | .subReg _ _ | .shr _ _ | .subnReg _ _ | .shl _ _ | .ldI _ | .rnd _ _ | .drw _ _ _ | .ldVxDT _ | .ldDTVx _
  | .ldSTVx _ | .addI _ | .ldF _ | .ldB _ | .store _ | .load _ => s.pc.toNat + 2

/-- The `aux` value of the one fault a handler can raise on `s`, with the fault's code (R221, R230). -/
def Instr.faultOf (s : State) : Instr → Option (Nat × Nat)
  | .ret => some (4, 0)
  | .call _ => some (3, 0)
  | .drw _ _ _ | .ldB _ | .store _ | .load _ => some (2, max s.I.toNat 0x1000)
  | .skp x | .sknp x => some (5, (s.V[x]).toNat)
  | .cls | .jp _ | .jpV0 _ | .seByte _ _ | .sneByte _ _ | .seReg _ _ | .sneReg _ _ | .ldByte _ _ | .addByte _ _
  | .ldReg _ _ | .orReg _ _ | .andReg _ _ | .xorReg _ _ | .addReg _ _ | .subReg _ _ | .shr _ _ | .subnReg _ _
  | .shl _ _ | .ldI _ | .rnd _ _ | .ldVxDT _ | .ldVxK _ | .ldDTVx _ | .ldSTVx _ | .addI _ | .ldF _ => none

end Sys2Proof
end

