-- ==== Sys2Proof/Certificates/Slice0/Obligations.lean ====
section
/-!
DEFINITION. What is claimed of the core. Each statement names the rule of spec/ it formalises. "log n" is
notes/assumptions/n.md; a clause that rests on a decision of the spec or on the model's own choice says so.
A handler is entered with `pc = a + 2`, where `a` is the address of its instruction.
-/
open Sys2Proof Sys2Proof.Machine

/-! ## Encoding -/

/-- R80 to R83: decoding the word, or the two bytes, of a well-formed instruction gives it back, whatever bytes follow.
The strict match of the fixed digits is decision D3 (log 9). -/
def Obligations.DecodeUndoesEncode : Prop :=
  ∀ i : Instr, i.WellFormed = true →
    decode (encode i) = .ok i ∧
    ∀ rest : List Byte, decodeBytes (encodeBytes i ++ rest) = .ok (i, rest)

/-- No bit of a recognised word is dropped, and what decoding gives is well formed. That no fixed digit is ignored is the
strict match, decision D3 (log 9). -/
def Obligations.EncodeUndoesDecode : Prop :=
  ∀ (w : Word) (i : Instr), decode w = .ok i → encode i = w ∧ i.WellFormed = true

/-- R83, R86 with the strict match D3 (log 9): a recognised word matches the table row of the operation it decodes to,
and a word is unrecognised exactly when it matches no row. -/
def Obligations.DecodeFollowsTheTable : Prop :=
  ∀ w : Word,
    (∀ i, decode w = .ok i → ∃ r, opcodeTable[i.rowIndex]? = some r ∧ r.matches w = true) ∧
    (decode w = .error (.unrecognised w) ↔ ∀ r ∈ opcodeTable, r.matches w = false)

/-- R93 (derived there): no word matches two rows of the table. -/
def Obligations.TableRowsDisjoint : Prop :=
  ∀ (w : Word) (r₁ r₂ : OpcodeRow), r₁ ∈ opcodeTable → r₂ ∈ opcodeTable →
    r₁.matches w = true → r₂.matches w = true → r₁ = r₂

/-- Words written out from the encodings of R86, one per family. -/
def Obligations.SampleWordsDecode : Prop :=
  decode 0x00E0#16 = .ok .cls ∧ decode 0x1ABC#16 = .ok (.jp 0xABC#12) ∧ decode 0x220A#16 = .ok (.call 0x20A#12) ∧
  decode 0x3A42#16 = .ok (.seByte 10 0x42#8) ∧ decode 0x4A10#16 = .ok (.sneByte 10 0x10#8) ∧
  decode 0x5120#16 = .ok (.seReg 1 2) ∧ decode 0x6F37#16 = .ok (.ldByte 15 0x37#8) ∧
  decode 0x7302#16 = .ok (.addByte 3 0x02#8) ∧ decode 0x812E#16 = .ok (.shl 1 2) ∧
  decode 0x9120#16 = .ok (.sneReg 1 2) ∧ decode 0xA300#16 = .ok (.ldI 0x300#12) ∧
  decode 0xBFFF#16 = .ok (.jpV0 0xFFF#12) ∧ decode 0xC30F#16 = .ok (.rnd 3 0x0F#8) ∧
  decode 0xD125#16 = .ok (.drw 1 2 5) ∧ decode 0xE19E#16 = .ok (.skp 1) ∧ decode 0xF265#16 = .ok (.load 2) ∧
  decode 0x5121#16 = .error (.unrecognised 0x5121#16) ∧ decode 0x0000#16 = .error (.unrecognised 0x0000#16)

/-! ## The cycle -/

/-- R108, R110 to R113: where the word at `pc` is an instruction, a step is its handler on the state with the word
latched, the input supplied and `pc` two further on, and after it the end of the cycle. The latch's value after the
cycle and the input byte are free values (logs 2 and 4), the tick is the open parameter (log 3). -/
def Obligations.StepRunsDecodedInstruction : Prop :=
  ∀ (s : State) (i : Instr) (w : Word), s.pc.toNat ≤ 0xFFE →
    w = wordOfBytes (s.mem.byte s.pc.toNat) (s.mem.byte (s.pc.toNat + 1)) → decode w = .ok i →
    step s = mapNext (endCycle ticksPerCycle)
      (exec i { s with opcode := w, rnd := Config.randomByte s.cycles, pc := s.pc + 2 }) ∧
    ∀ t : State, endCycle ticksPerCycle t =
      { t with
        DT := if ticksPerCycle then decay t.DT else t.DT
        ST := if ticksPerCycle then decay t.ST else t.ST
        opcode := Config.staleOpcode t.cycles
        cycles := t.cycles + 1 }

/-- R109: the word fetched is the byte at `pc` above the byte at `pc + 1`; from `pc = 0xFFF` upward the cycle raises
`FetchOutOfBounds` with the lowest invalid address. -/
def Obligations.FetchBigEndianOrFault : Prop :=
  ∀ s : State,
    (s.pc.toNat ≤ 0xFFE → ∃ w, fetch s = .ok w ∧
      w.toNat = 256 * (s.mem.byte s.pc.toNat).toNat + (s.mem.byte (s.pc.toNat + 1)).toNat) ∧
    (0xFFF ≤ s.pc.toNat → ∀ (tick : Bool) (rnd : Byte), ∃ info : FaultInfo,
      cycle tick rnd s = .fault (.fetchOutOfBounds info) ∧
      info.aux = if s.pc.toNat = 0xFFF then 0x1000 else s.pc.toNat)

/-- R88, R114, R232: which words are unrecognised, family by family, and what a cycle that fetches one does: `pc` is two
further on, one diagnostic (word, address) is emitted and reported to the host, the tick runs if configured, nothing else
changes. A completed cycle that ran an instruction reports no diagnostic. The record's fields are decision D18, the strict
match D3 (logs 6 and 9). -/
def Obligations.UnrecognisedWordIsReportedNoOp : Prop :=
  (∀ w : Word, decode w = .error (.unrecognised w) ↔
    (family w = 0x0#4 ∧ w ≠ 0x00E0#16 ∧ w ≠ 0x00EE#16) ∨
    (family w = 0x5#4 ∧ nibble4 w ≠ 0x0#4) ∨ (family w = 0x9#4 ∧ nibble4 w ≠ 0x0#4) ∨
    (family w = 0x8#4 ∧ nibble4 w ∈ [0x8#4, 0x9#4, 0xA#4, 0xB#4, 0xC#4, 0xD#4, 0xF#4]) ∨
    (family w = 0xE#4 ∧ fieldKK w ∉ [0x9E#8, 0xA1#8]) ∨
    (family w = 0xF#4 ∧
      fieldKK w ∉ [0x07#8, 0x0A#8, 0x15#8, 0x18#8, 0x1E#8, 0x29#8, 0x33#8, 0x55#8, 0x65#8])) ∧
  (∀ (s t : State) (w : Word) (i : Instr) (tick : Bool) (rnd : Byte),
    fetch s = .ok w → decode w = .ok i → cycle tick rnd s = .next t →
    perform tick (.cycle rnd) s = (t, .cycleOk none)) ∧
  ∀ (s : State) (w : Word) (tick : Bool) (rnd : Byte),
    fetch s = .ok w → decode w = .error (.unrecognised w) →
    ∃ t, cycle tick rnd s = .next t ∧ perform tick (.cycle rnd) s = (t, .cycleOk (some ⟨w, s.pc⟩)) ∧
      t.pc.toNat = s.pc.toNat + 2 ∧ t.diags = ⟨w, s.pc⟩ :: s.diags ∧
      t.DT.toNat = (if tick then s.DT.toNat - 1 else s.DT.toNat) ∧
      t.ST.toNat = (if tick then s.ST.toNat - 1 else s.ST.toNat) ∧
      t.V = s.V ∧ t.I = s.I ∧ t.sp = s.sp ∧ t.stack = s.stack ∧ t.key = s.key ∧ t.fb = s.fb ∧ t.mem = s.mem

/-- R113, R207 (decision D2, log 3): the tick of a cycle comes after the handler and touches the two timers only: a
ticking cycle ends as the same cycle without tick, each timer one less if it was not zero. -/
def Obligations.CycleTickFollowsHandler : Prop :=
  ∀ (rnd : Byte) (s u : State), cycle false rnd s = .next u →
    ∃ t, cycle true rnd s = .next t ∧ t.DT.toNat = u.DT.toNat - 1 ∧ t.ST.toNat = u.ST.toNat - 1 ∧
      t = { u with DT := t.DT, ST := t.ST }

/-- No step is refused: every instruction of the table has a meaning (R112) and every other word is a no-operation. -/
def Obligations.StepNeverRefuses : Prop :=
  (∀ (i : Instr) (s : State) (r : Refusal), exec i s ≠ .refused r) ∧
  ∀ (s : State) (r : Refusal), step s ≠ .refused r

/-! ## Host operations -/

/-- R101: what `Reset` leaves, whatever the state before. That `pc` is 0x200 is decision D15, conflict C6 (log 12); the
font bytes are the parameter FONT_DATA (log 7). -/
def Obligations.ResetGivesResetState : Prop :=
  ∀ (tick : Bool) (s : State), ∃ t, perform tick .reset s = (t, .ok) ∧
    (∀ r : Reg, t.V[r] = 0) ∧ t.I = 0 ∧ t.sp = 0 ∧ (∀ j : Fin 16, t.stack[j] = 0) ∧ t.DT = 0 ∧ t.ST = 0 ∧
    (∀ k : Reg, t.key[k] = false) ∧ (∀ (r : Fin 32) (c : Fin 64), t.fb[r][c] = false) ∧
    (∀ a, (a < 0x50 ∨ 0xA0 ≤ a) → t.mem.byte a = 0) ∧
    (∀ j, (h : j < Config.fontData.length) → t.mem.byte (0x50 + j) = Config.fontData[j]) ∧
    Config.fontData.length = 80 ∧ t.opcode = 0 ∧ t.pc = 0x200

/-- R104, R59 (its details are decision D16, log 14): an image that fits is copied from 0x200 and `pc` is set, nothing
else; one that does not fit changes nothing. -/
def Obligations.LoadCopiesImageOrRefuses : Prop :=
  ∀ (tick : Bool) (img : List Byte) (s : State),
    (0x200 + img.length ≤ 4096 → ∃ t, perform tick (.load img) s = (t, .ok) ∧ t.pc = 0x200 ∧
      (∀ j, (h : j < img.length) → t.mem.byte (0x200 + j) = img[j]) ∧
      (∀ a, (a < 0x200 ∨ 0x200 + img.length ≤ a) → t.mem.byte a = s.mem.byte a) ∧
      State.SameBut { pc := true, mem := true } s t ∧ (s.mem.wf → t.mem.wf)) ∧
    (4096 < 0x200 + img.length → perform tick (.load img) s = (s, .loadTooLarge))

/-- R106 (its details are decision D23, log 15): `SetKeys` replaces the 16 slots and nothing else. -/
def Obligations.SetKeysReplacesSnapshot : Prop :=
  ∀ (tick : Bool) (k : Vector Bool 16) (s : State), perform tick (.setKeys k) s = ({ s with key := k }, .ok)

/-- R120 (the free schedule is decision D2, log 3): `Tick` takes one from each timer that is not zero and does nothing
else, whatever TICK_PER_CYCLE is. -/
def Obligations.TickDecrementsTimers : Prop :=
  ∀ (tick : Bool) (s : State), ∃ t, perform tick .tick s = (t, .ok) ∧
    t.DT.toNat = s.DT.toNat - 1 ∧ t.ST.toNat = s.ST.toNat - 1 ∧ State.SameBut { DT := true, ST := true } s t

/-- R122: the reads return the pixels and the timers as they stand and change nothing. -/
def Obligations.ReadsReturnAndChangeNothing : Prop :=
  ∀ (tick : Bool) (s : State),
    perform tick .readFrameBuffer s = (s, .frame s.fb) ∧ perform tick .readTimers s = (s, .timers s.DT s.ST)

/-- R262 (decision D15, log 12): before the first `Reset` only `Reset` has a transition, and it leads to the reset
state. -/
def Obligations.OnlyResetBeforeReset : Prop :=
  ∀ (tick : Bool) (op : HostOp),
    (op = .reset → hostStep tick op none = some (State.reset, .ok)) ∧ (op ≠ .reset → hostStep tick op none = none)

/-! ## Control flow (spec/41) -/

/-- R131: `00EE` pops `pc`; with nothing on the stack it raises `StackUnderflow`. That the popped slot keeps its value is
decision D14 (log 21). -/
def Obligations.RetPopsProgramCounter : Prop :=
  decode 0x00EE#16 = .ok .ret ∧
  ∀ s : State,
    (∀ h : 0 < s.sp.val, ∃ t, exec .ret s = .next t ∧ t.sp.val = s.sp.val - 1 ∧
      t.pc = s.stack[s.sp.val - 1]'(by omega) ∧ t.stack = s.stack ∧
      State.SameBut { pc := true, sp := true } s t) ∧
    (s.sp.val = 0 → ∃ info, exec .ret s = .fault (.stackUnderflow info)) ∧
    (∀ nnn : Imm12, s.sp.val < 16 → ∃ t u, exec (.call nnn) s = .next t ∧ exec .ret t = .next u ∧
      u.pc = s.pc ∧ u.sp = s.sp)

/-- R132: `1nnn` sets `pc`. -/
def Obligations.JpSetsProgramCounter : Prop :=
  ∀ nnn : Imm12, decode (formatNNN 0x1#4 nnn) = .ok (.jp nnn) ∧
    ∀ s : State, ∃ t, exec (.jp nnn) s = .next t ∧ t.pc.toNat = nnn.toNat ∧ State.SameBut { pc := true } s t

/-- R133: `2nnn` pushes the address after the call and jumps; with 16 addresses held it raises `StackOverflow`. -/
def Obligations.CallPushesAndJumps : Prop :=
  ∀ nnn : Imm12, decode (formatNNN 0x2#4 nnn) = .ok (.call nnn) ∧
    ∀ s : State,
      (∀ h : s.sp.val < 16, ∃ t, exec (.call nnn) s = .next t ∧ t.sp.val = s.sp.val + 1 ∧ t.pc.toNat = nnn.toNat ∧
        t.stack[s.sp.val]'h = s.pc ∧ (∀ j : Fin 16, j.val ≠ s.sp.val → t.stack[j] = s.stack[j]) ∧
        State.SameBut { pc := true, stack := true, sp := true } s t) ∧
      (s.sp.val = 16 → ∃ info, exec (.call nnn) s = .fault (.stackOverflow info))

/-- R134, R135: the skips on an immediate. -/
def Obligations.SkipsOnImmediate : Prop :=
  ∀ (x : Reg) (kk : Byte),
    decode (formatXKK 0x3#4 x kk) = .ok (.seByte x kk) ∧ decode (formatXKK 0x4#4 x kk) = .ok (.sneByte x kk) ∧
    ∀ s : State,
      (∃ t, exec (.seByte x kk) s = .next t ∧ t.pc = (if s.V[x] = kk then s.pc + 2 else s.pc) ∧
        State.SameBut { pc := true } s t) ∧
      (∃ t, exec (.sneByte x kk) s = .next t ∧ t.pc = (if s.V[x] = kk then s.pc else s.pc + 2) ∧
        State.SameBut { pc := true } s t)

/-- R136, R137: the skips on two registers. -/
def Obligations.SkipsOnRegisters : Prop :=
  ∀ x y : Reg,
    decode (formatXY 0x5#4 x y 0x0#4) = .ok (.seReg x y) ∧ decode (formatXY 0x9#4 x y 0x0#4) = .ok (.sneReg x y) ∧
    ∀ s : State,
      (∃ t, exec (.seReg x y) s = .next t ∧ t.pc = (if s.V[x] = s.V[y] then s.pc + 2 else s.pc) ∧
        State.SameBut { pc := true } s t) ∧
      (∃ t, exec (.sneReg x y) s = .next t ∧ t.pc = (if s.V[x] = s.V[y] then s.pc else s.pc + 2) ∧
        State.SameBut { pc := true } s t)

/-- R138; that the sum is not reduced to 12 bits is decision D17 (log 16). -/
def Obligations.JpV0AddsOffset : Prop :=
  ∀ nnn : Imm12, decode (formatNNN 0xB#4 nnn) = .ok (.jpV0 nnn) ∧
    ∀ s : State, ∃ t, exec (.jpV0 nnn) s = .next t ∧ t.pc.toNat = (s.V[(0 : Reg)]).toNat + nnn.toNat ∧
      State.SameBut { pc := true } s t

/-! ## Registers and arithmetic (spec/42) -/

/-- R151: `6xkk`. -/
def Obligations.LdByteWritesImmediate : Prop :=
  ∀ (x : Reg) (kk : Byte), decode (formatXKK 0x6#4 x kk) = .ok (.ldByte x kk) ∧
    ∀ s : State, ∃ t, exec (.ldByte x kk) s = .next t ∧ t.V[x] = kk ∧ State.OtherRegs [x] s t ∧
      State.SameBut { V := true } s t

/-- R152: `7xkk` wraps and leaves VF alone unless `x` is VF. -/
def Obligations.AddByteWrapsWithoutFlag : Prop :=
  ∀ (x : Reg) (kk : Byte), decode (formatXKK 0x7#4 x kk) = .ok (.addByte x kk) ∧
    ∀ s : State, ∃ t, exec (.addByte x kk) s = .next t ∧
      (t.V[x]).toNat = ((s.V[x]).toNat + kk.toNat) % 256 ∧ State.OtherRegs [x] s t ∧
      State.SameBut { V := true } s t

/-- R153: `8xy0`. -/
def Obligations.LdRegCopies : Prop :=
  ∀ x y : Reg, decode (formatXY 0x8#4 x y 0x0#4) = .ok (.ldReg x y) ∧
    ∀ s : State, ∃ t, exec (.ldReg x y) s = .next t ∧ t.V[x] = s.V[y] ∧ State.OtherRegs [x] s t ∧
      State.SameBut { V := true } s t

/-- R154, R155, R156: the bitwise operations, bit by bit; VF is not written unless `x` is VF. -/
def Obligations.LogicIsBitwise : Prop :=
  ∀ x y : Reg,
    decode (formatXY 0x8#4 x y 0x1#4) = .ok (.orReg x y) ∧ decode (formatXY 0x8#4 x y 0x2#4) = .ok (.andReg x y) ∧
    decode (formatXY 0x8#4 x y 0x3#4) = .ok (.xorReg x y) ∧
    ∀ s : State,
      (∃ t, exec (.orReg x y) s = .next t ∧ State.OtherRegs [x] s t ∧ State.SameBut { V := true } s t ∧
        ∀ k, (t.V[x]).getLsbD k = ((s.V[x]).getLsbD k || (s.V[y]).getLsbD k)) ∧
      (∃ t, exec (.andReg x y) s = .next t ∧ State.OtherRegs [x] s t ∧ State.SameBut { V := true } s t ∧
        ∀ k, (t.V[x]).getLsbD k = ((s.V[x]).getLsbD k && (s.V[y]).getLsbD k)) ∧
      (∃ t, exec (.xorReg x y) s = .next t ∧ State.OtherRegs [x] s t ∧ State.SameBut { V := true } s t ∧
        ∀ k, (t.V[x]).getLsbD k = ((s.V[x]).getLsbD k ^^ (s.V[y]).getLsbD k))

/-- R157: sum and carry. That for `x = F` the carry wins is the sequential reading of decision D11 (log 8). -/
def Obligations.AddRegSetsCarry : Prop :=
  ∀ x y : Reg, decode (formatXY 0x8#4 x y 0x4#4) = .ok (.addReg x y) ∧
    ∀ s : State, ∃ t, exec (.addReg x y) s = .next t ∧
      (x ≠ regVF → (t.V[x]).toNat = ((s.V[x]).toNat + (s.V[y]).toNat) % 256) ∧
      t.V[regVF] = (if (s.V[x]).toNat + (s.V[y]).toNat > 255 then 1 else 0) ∧
      State.OtherRegs [x, regVF] s t ∧ State.SameBut { V := true } s t

/-- R158, R160 (equal operands give 0, conflict C5): differences and the strictly-greater flag. For `x = F` the flag
wins by decision D11 (log 8). -/
def Obligations.SubtractsSetGreaterFlag : Prop :=
  ∀ x y : Reg,
    decode (formatXY 0x8#4 x y 0x5#4) = .ok (.subReg x y) ∧ decode (formatXY 0x8#4 x y 0x7#4) = .ok (.subnReg x y) ∧
    ∀ s : State,
      (∃ t, exec (.subReg x y) s = .next t ∧
        (x ≠ regVF → ((t.V[x]).toNat : Int) = ((s.V[x]).toNat - (s.V[y]).toNat : Int) % 256) ∧
        t.V[regVF] = (if (s.V[y]).toNat < (s.V[x]).toNat then 1 else 0) ∧
        State.OtherRegs [x, regVF] s t ∧ State.SameBut { V := true } s t) ∧
      (∃ t, exec (.subnReg x y) s = .next t ∧
        (x ≠ regVF → ((t.V[x]).toNat : Int) = ((s.V[y]).toNat - (s.V[x]).toNat : Int) % 256) ∧
        t.V[regVF] = (if (s.V[x]).toNat < (s.V[y]).toNat then 1 else 0) ∧
        State.OtherRegs [x, regVF] s t ∧ State.SameBut { V := true } s t)

/-- R159, R161: the shifts by one of `V[x]`, any `y`, with the lost bit in VF. For `x = F` the results are those of the
sequential reading, decision D11 (log 8): 0, and 0 or 2. -/
def Obligations.ShiftsCaptureLostBit : Prop :=
  ∀ x y : Reg,
    decode (formatXY 0x8#4 x y 0x6#4) = .ok (.shr x y) ∧ decode (formatXY 0x8#4 x y 0xE#4) = .ok (.shl x y) ∧
    ∀ s : State,
      (∃ t, exec (.shr x y) s = .next t ∧
        (x ≠ regVF → (t.V[x]).toNat = (s.V[x]).toNat / 2 ∧ (t.V[regVF]).toNat = (s.V[x]).toNat % 2) ∧
        (x = regVF → t.V[regVF] = 0) ∧
        State.OtherRegs [x, regVF] s t ∧ State.SameBut { V := true } s t) ∧
      (∃ t, exec (.shl x y) s = .next t ∧
        (x ≠ regVF → (t.V[x]).toNat = 2 * (s.V[x]).toNat % 256 ∧ (t.V[regVF]).toNat = (s.V[x]).toNat / 128) ∧
        (x = regVF → (t.V[regVF]).toNat = 2 * ((s.V[x]).toNat / 128)) ∧
        State.OtherRegs [x, regVF] s t ∧ State.SameBut { V := true } s t)

/-- R165; that the byte is an unconstrained input of the cycle is decision D12 (log 2): the statement holds for every
value of it. -/
def Obligations.RndMasksInputByte : Prop :=
  ∀ (x : Reg) (kk : Byte), decode (formatXKK 0xC#4 x kk) = .ok (.rnd x kk) ∧
    ∀ s : State, ∃ t, exec (.rnd x kk) s = .next t ∧
      (∀ k, (t.V[x]).getLsbD k = (s.rnd.getLsbD k && kk.getLsbD k)) ∧ State.OtherRegs [x] s t ∧
      State.SameBut { V := true } s t

/-! ## Index register and memory (spec/43) -/

/-- R171: `Annn`. -/
def Obligations.LdISetsIndex : Prop :=
  ∀ nnn : Imm12, decode (formatNNN 0xA#4 nnn) = .ok (.ldI nnn) ∧
    ∀ s : State, ∃ t, exec (.ldI nnn) s = .next t ∧ t.I.toNat = nnn.toNat ∧ State.SameBut { I := true } s t

/-- R172; the 16-bit modulus is decision D8 (log 11). No flag, no fault, whatever the sum. -/
def Obligations.AddIWrapsAtSixteenBits : Prop :=
  ∀ x : Reg, decode (formatXKK 0xF#4 x 0x1E#8) = .ok (.addI x) ∧
    ∀ s : State, ∃ t, exec (.addI x) s = .next t ∧ t.I.toNat = (s.I.toNat + (s.V[x]).toNat) % 65536 ∧
      State.SameBut { I := true } s t

/-- R174; that values above 15 are not masked is decision D8 (log 11). -/
def Obligations.LdFPointsAtGlyph : Prop :=
  ∀ x : Reg, decode (formatXKK 0xF#4 x 0x29#8) = .ok (.ldF x) ∧
    ∀ s : State, ∃ t, exec (.ldF x) s = .next t ∧ t.I.toNat = 0x050 + 5 * (s.V[x]).toNat ∧
      State.SameBut { I := true } s t

/-- R176: the three digits at `I`, `I + 1`, `I + 2`, every other byte as before; above 0xFFD the fault with the lowest
invalid address. That `I` stays is decision D24, the reported address D5 (logs 17 and 10). -/
def Obligations.LdBStoresDecimalDigits : Prop :=
  ∀ x : Reg, decode (formatXKK 0xF#4 x 0x33#8) = .ok (.ldB x) ∧
    ∀ s : State,
      (s.ea 2 ≤ 0xFFF → ∃ t, exec (.ldB x) s = .next t ∧
        (t.mem.byte (s.ea 0)).toNat = (s.V[x]).toNat / 100 ∧
        (t.mem.byte (s.ea 1)).toNat = (s.V[x]).toNat / 10 % 10 ∧
        (t.mem.byte (s.ea 2)).toNat = (s.V[x]).toNat % 10 ∧
        (∀ a, a ≠ s.ea 0 → a ≠ s.ea 1 → a ≠ s.ea 2 → t.mem.byte a = s.mem.byte a) ∧
        State.SameBut { mem := true } s t) ∧
      (0xFFF < s.ea 2 → ∃ info, exec (.ldB x) s = .fault (.memoryOutOfBounds info) ∧
        info.aux = if s.I.toNat = 0xFFE ∨ s.I.toNat = 0xFFF then 0x1000 else s.I.toNat)

/-- R178: V0 to Vx at `I` to `I + x`, every other byte as before. That `I` stays is decision D24, that a fault leaves
nothing written D5 (logs 17 and 10). -/
def Obligations.StoreWritesRegisters : Prop :=
  ∀ x : Reg, decode (formatXKK 0xF#4 x 0x55#8) = .ok (.store x) ∧
    ∀ s : State,
      (s.ea x.val ≤ 0xFFF → ∃ t, exec (.store x) s = .next t ∧
        (∀ i : Reg, i ≤ x → t.mem.byte (s.ea i.val) = s.V[i]) ∧
        (∀ a, (∀ i : Reg, i ≤ x → a ≠ s.ea i.val) → t.mem.byte a = s.mem.byte a) ∧
        State.SameBut { mem := true } s t) ∧
      (0xFFF < s.ea x.val → ∃ info, exec (.store x) s = .fault (.memoryOutOfBounds info) ∧
        info.aux = max s.I.toNat 0x1000)

/-- R180: V0 to Vx from `I` to `I + x`, the registers above `x` and memory as before. That `I` stays is decision D24,
that a fault loads nothing D5 (logs 17 and 10). -/
def Obligations.LoadReadsRegisters : Prop :=
  ∀ x : Reg, decode (formatXKK 0xF#4 x 0x65#8) = .ok (.load x) ∧
    ∀ s : State,
      (s.ea x.val ≤ 0xFFF → ∃ t, exec (.load x) s = .next t ∧
        (∀ i : Reg, t.V[i] = if i ≤ x then s.mem.byte (s.ea i.val) else s.V[i]) ∧
        State.SameBut { V := true } s t) ∧
      (0xFFF < s.ea x.val → ∃ info, exec (.load x) s = .fault (.memoryOutOfBounds info) ∧
        info.aux = max s.I.toNat 0x1000)

/-! ## Display (spec/44) -/

/-- R191: `00E0` turns every pixel off and does nothing else. -/
def Obligations.ClsClearsFrameBuffer : Prop :=
  decode 0x00E0#16 = .ok .cls ∧
  ∀ s : State, ∃ t, exec .cls s = .next t ∧ (∀ (r : Fin 32) (c : Fin 64), t.fb[r][c] = false) ∧
    State.SameBut { fb := true } s t

/-- R192: a pixel is toggled exactly when a sprite row covers it with a 1 bit; VF says whether one went off; `I` and
memory stay. The bit order is decision D9 (general knowledge), the check of all `n` bytes D10 (log 18), that `I` stays D24
(log 17). -/
def Obligations.DrwTogglesSpritePixels : Prop :=
  ∀ (x y : Reg) (n : BitVec 4), decode (formatXY 0xD#4 x y n) = .ok (.drw x y n.toNat) ∧
    ∀ s : State, (n.toNat = 0 ∨ s.ea (n.toNat - 1) ≤ 0xFFF) →
      ∃ t, exec (.drw x y n.toNat) s = .next t ∧
        (∀ (r : Fin 32) (c : Fin 64),
          let top := (s.V[y]).toNat % 32
          let left := (s.V[x]).toNat % 64
          t.fb[r][c] = (s.fb[r][c] ^^
            (decide (top ≤ r.val ∧ r.val < top + n.toNat ∧ left ≤ c.val ∧ c.val < left + 8) &&
              (s.mem.byte (s.ea (r.val - top))).getLsbD (7 - (c.val - left))))) ∧
        (t.V[regVF] = 1 ∧ (∃ (r : Fin 32) (c : Fin 64), s.fb[r][c] = true ∧ t.fb[r][c] = false) ∨
          t.V[regVF] = 0 ∧ ∀ (r : Fin 32) (c : Fin 64), s.fb[r][c] = true → t.fb[r][c] = true) ∧
        State.OtherRegs [regVF] s t ∧ State.SameBut { V := true, fb := true } s t

/-- R194: the start wraps and the body is clipped: no pixel outside the `n` by 8 rectangle from
(`V[x] mod 64`, `V[y] mod 32`) changes or collides, so nothing reaches the opposite edge; a sprite of 1 bits only changes
every pixel inside it; and clipping never faults. -/
def Obligations.DrwClipsAtEdges : Prop :=
  ∀ (x y : Reg) (n : Nat) (s : State), (n = 0 ∨ s.ea (n - 1) ≤ 0xFFF) →
    ∃ t, exec (.drw x y n) s = .next t ∧
      (∀ (r : Fin 32) (c : Fin 64), t.fb[r][c] ≠ s.fb[r][c] →
        (s.V[y]).toNat % 32 ≤ r.val ∧ r.val < (s.V[y]).toNat % 32 + n ∧
        (s.V[x]).toNat % 64 ≤ c.val ∧ c.val < (s.V[x]).toNat % 64 + 8) ∧
      ((∀ k, k < n → s.mem.byte (s.ea k) = 0xFF) → ∀ (r : Fin 32) (c : Fin 64),
        (s.V[y]).toNat % 32 ≤ r.val → r.val < (s.V[y]).toNat % 32 + n →
        (s.V[x]).toNat % 64 ≤ c.val → c.val < (s.V[x]).toNat % 64 + 8 → t.fb[r][c] = !s.fb[r][c]) ∧
      (t.V[regVF] ≠ 0 → ∃ (r : Fin 32) (c : Fin 64), s.fb[r][c] = true ∧ t.fb[r][c] = false)

/-- R195: after a completed draw VF is 1 exactly when some pixel that was on is off, and 0 otherwise. -/
def Obligations.DrwFlagIsCollision : Prop :=
  ∀ (x y : Reg) (n : Nat) (s t : State), exec (.drw x y n) s = .next t →
    (t.V[regVF] = 1 ↔ ∃ (r : Fin 32) (c : Fin 64), s.fb[r][c] = true ∧ t.fb[r][c] = false) ∧
    (t.V[regVF] = 0 ∨ t.V[regVF] = 1)

/-- R196 (decision D10, log 18): no row reads nothing and never faults, VF becomes 0; otherwise every byte of the
sprite is checked, clipped rows too. The reported address is decision D5, that `I` stays D24 (logs 10 and 17). -/
def Obligations.DrwChecksWholeSprite : Prop :=
  ∀ (x y : Reg) (s : State),
    (∃ t, exec (.drw x y 0) s = .next t ∧ t.V[regVF] = 0 ∧ State.OtherRegs [regVF] s t ∧
      State.SameBut { V := true } s t) ∧
    ∀ n : Nat, 0xFFF < s.ea n → ∃ info, exec (.drw x y (n + 1)) s = .fault (.memoryOutOfBounds info) ∧
      info.aux = max s.I.toNat 0x1000

/-! ## Keypad and timers (spec/45) -/

/-- R201, R202: the skips on a key's level; the fault for an index above 15 is decision D7 (log 10). -/
def Obligations.SkipsOnKey : Prop :=
  ∀ x : Reg,
    decode (formatXKK 0xE#4 x 0x9E#8) = .ok (.skp x) ∧ decode (formatXKK 0xE#4 x 0xA1#8) = .ok (.sknp x) ∧
    ∀ s : State,
      (∀ k : Reg, (s.V[x]).toNat = k.val →
        (∃ t, exec (.skp x) s = .next t ∧ t.pc = (if s.key[k] = true then s.pc + 2 else s.pc) ∧
          State.SameBut { pc := true } s t) ∧
        (∃ t, exec (.sknp x) s = .next t ∧ t.pc = (if s.key[k] = true then s.pc else s.pc + 2) ∧
          State.SameBut { pc := true } s t)) ∧
      (15 < (s.V[x]).toNat →
        (∃ info, exec (.skp x) s = .fault (.keyIndexOutOfRange info) ∧ info.aux = (s.V[x]).toNat) ∧
        (∃ info, exec (.sknp x) s = .fault (.keyIndexOutOfRange info) ∧ info.aux = (s.V[x]).toNat))

/-- R203: `Fx07` reads the delay timer. -/
def Obligations.LdVxDTReadsDelayTimer : Prop :=
  ∀ x : Reg, decode (formatXKK 0xF#4 x 0x07#8) = .ok (.ldVxDT x) ∧
    ∀ s : State, ∃ t, exec (.ldVxDT x) s = .next t ∧ t.V[x] = s.DT ∧ State.OtherRegs [x] s t ∧
      State.SameBut { V := true } s t

/-- R204: with every key up `Fx0A` goes back to its own address and changes nothing else; else the lowest pressed key
goes to `V[x]`. -/
def Obligations.LdVxKWaitsForLowestKey : Prop :=
  ∀ x : Reg, decode (formatXKK 0xF#4 x 0x0A#8) = .ok (.ldVxK x) ∧
    ∀ s : State,
      ((∀ k : Reg, s.key[k] = false) → ∃ t, exec (.ldVxK x) s = .next t ∧ t.pc = s.pc - 2 ∧
        State.SameBut { pc := true } s t) ∧
      (∀ k : Reg, s.key[k] = true → (∀ j : Reg, j < k → s.key[j] = false) →
        ∃ t, exec (.ldVxK x) s = .next t ∧ (t.V[x]).toNat = k.val ∧ State.OtherRegs [x] s t ∧
          State.SameBut { V := true } s t)

/-- R205, R206: the timers are set from `V[x]`. -/
def Obligations.TimersAreSetFromRegister : Prop :=
  ∀ x : Reg,
    decode (formatXKK 0xF#4 x 0x15#8) = .ok (.ldDTVx x) ∧ decode (formatXKK 0xF#4 x 0x18#8) = .ok (.ldSTVx x) ∧
    ∀ s : State,
      (∃ t, exec (.ldDTVx x) s = .next t ∧ t.DT = s.V[x] ∧ State.SameBut { DT := true } s t) ∧
      (∃ t, exec (.ldSTVx x) s = .next t ∧ t.ST = s.V[x] ∧ State.SameBut { ST := true } s t)

/-! ## Faults (spec/60) -/

/-- R223: exactly when each of the four instructions that access memory through `I` raises `MemoryOutOfBounds`; the
cycle that reports it changes nothing, so no byte, register or pixel of the access is written (decision D5, log 10). -/
def Obligations.MemoryFaultExactlyOutOfBounds : Prop :=
  ∀ (x y : Reg) (s : State),
    (∀ n : Nat, (∃ info, exec (.drw x y n) s = .fault (.memoryOutOfBounds info)) ↔ 0 < n ∧ s.I.toNat + n - 1 > 0xFFF) ∧
    ((∃ info, exec (.ldB x) s = .fault (.memoryOutOfBounds info)) ↔ s.I.toNat + 2 > 0xFFF) ∧
    ((∃ info, exec (.store x) s = .fault (.memoryOutOfBounds info)) ↔ s.I.toNat + x.val > 0xFFF) ∧
    ((∃ info, exec (.load x) s = .fault (.memoryOutOfBounds info)) ↔ s.I.toNat + x.val > 0xFFF) ∧
    ∀ (tick : Bool) (rnd : Byte) (info : FaultInfo), cycle tick rnd s = .fault (.memoryOutOfBounds info) →
      perform tick (.cycle rnd) s = (s, .cycleFault (.memoryOutOfBounds info))

/-- R221, R225, R230: a handler raises only the one fault the table gives its instruction, with the record (a, w, aux);
a faulting fetch reports `pc`, no word and the lowest invalid address; and the record of any other faulting cycle holds
the `pc` before the cycle and the word fetched. The codes and the record are decision D6, the lowest invalid address D5,
the key index D7 (log 10). -/
def Obligations.FaultsFollowTheTable : Prop :=
  (∀ (i : Instr) (s : State) (f : Fault), exec i s = .fault f →
    i.faultOf s = some (f.code, f.info.aux) ∧ f.info.addr = s.pc - 2 ∧ f.info.word = some s.opcode) ∧
  ∀ (tick : Bool) (rnd : Byte) (s : State),
    (0xFFF ≤ s.pc.toNat →
      cycle tick rnd s = .fault (.fetchOutOfBounds ⟨s.pc, none, max s.pc.toNat 0x1000⟩)) ∧
    ∀ (w : Word) (f : Fault), fetch s = .ok w → cycle tick rnd s = .fault f →
      f.info.addr = s.pc ∧ f.info.word = some w ∧ f.code ≠ 1

/-- R224, R234 (decision D5, log 10): a faulting cycle leaves the whole state as it was, and the next cycle, whatever
its input byte, returns the same fault. -/
def Obligations.FaultLeavesStateAndRepeats : Prop :=
  ∀ (tick : Bool) (rnd : Byte) (s : State) (f : Fault), cycle tick rnd s = .fault f →
    perform tick (.cycle rnd) s = (s, .cycleFault f) ∧ ∀ rnd' : Byte, cycle tick rnd' s = .fault f

/-! ## Rules over all instructions -/

/-- R22: what VF is after every instruction: the flag it names, or its result where VF is the explicit destination, else
as before; and 0 after reset. For `x = F`, that the flag of `8xy4`, `8xy5`, `8xy7` wins and what `8xy6` and `8xyE` leave
is decision D11 (log 8). -/
def Obligations.FlagRegisterTable : Prop :=
  State.reset.V[regVF] = 0 ∧
  ∀ (i : Instr) (s t : State), exec i s = .next t →
    (∀ x y, i = .addReg x y → t.V[regVF] = if (s.V[x]).toNat + (s.V[y]).toNat > 255 then 1 else 0) ∧
    (∀ x y, i = .subReg x y → t.V[regVF] = if (s.V[x]).toNat > (s.V[y]).toNat then 1 else 0) ∧
    (∀ x y, i = .shr x y → x ≠ regVF → t.V[regVF] = if (s.V[x]).getLsbD 0 = true then 1 else 0) ∧
    (∀ x y, i = .subnReg x y → t.V[regVF] = if (s.V[y]).toNat > (s.V[x]).toNat then 1 else 0) ∧
    (∀ x y, i = .shl x y → x ≠ regVF → t.V[regVF] = if (s.V[x]).getLsbD 7 = true then 1 else 0) ∧
    (∀ x y n, i = .drw x y n →
      (t.V[regVF] = 1 ∧ ∃ (r : Fin 32) (c : Fin 64), s.fb[r][c] = true ∧ t.fb[r][c] = false) ∨
      (t.V[regVF] = 0 ∧ ¬∃ (r : Fin 32) (c : Fin 64), s.fb[r][c] = true ∧ t.fb[r][c] = false)) ∧
    (∀ y, i = .shr regVF y → t.V[regVF] = 0) ∧
    (∀ y, i = .shl regVF y → t.V[regVF] = if (s.V[regVF]).getLsbD 7 = true then 2 else 0) ∧
    (∀ kk, i = .ldByte regVF kk → t.V[regVF] = kk) ∧
    (∀ kk, i = .addByte regVF kk → (t.V[regVF]).toNat = ((s.V[regVF]).toNat + kk.toNat) % 256) ∧
    (∀ y, i = .ldReg regVF y → t.V[regVF] = s.V[y]) ∧
    (∀ y, i = .orReg regVF y → ∀ k, (t.V[regVF]).getLsbD k = ((s.V[regVF]).getLsbD k || (s.V[y]).getLsbD k)) ∧
    (∀ y, i = .andReg regVF y → ∀ k, (t.V[regVF]).getLsbD k = ((s.V[regVF]).getLsbD k && (s.V[y]).getLsbD k)) ∧
    (∀ y, i = .xorReg regVF y → ∀ k, (t.V[regVF]).getLsbD k = ((s.V[regVF]).getLsbD k ^^ (s.V[y]).getLsbD k)) ∧
    (∀ kk, i = .rnd regVF kk → ∀ k, (t.V[regVF]).getLsbD k = (s.rnd.getLsbD k && kk.getLsbD k)) ∧
    (i = .ldVxDT regVF → t.V[regVF] = s.DT) ∧
    (i = .ldVxK regVF → (∀ k : Reg, s.key[k] = false) → t.V[regVF] = s.V[regVF]) ∧
    (i = .ldVxK regVF → ∀ k : Reg, s.key[k] = true → (∀ j : Reg, j < k → s.key[j] = false) →
      (t.V[regVF]).toNat = k.val) ∧
    (i = .load regVF → t.V[regVF] = s.mem.byte (s.ea 15)) ∧
    ((∀ x y, i ≠ .addReg x y ∧ i ≠ .subReg x y ∧ i ≠ .shr x y ∧ i ≠ .subnReg x y ∧ i ≠ .shl x y) →
      (∀ x y n, i ≠ .drw x y n) → i.targetsVF = false → t.V[regVF] = s.V[regVF])

/-- R24: `pc` after every cycle: the table's value after a completed cycle, two further on after an unrecognised word,
and unchanged, with all the state, by a cycle that returns a fault; and a call pushes `a + 2`. That
a faulting cycle leaves the state is decision D5 (log 10), that `Bnnn` is not masked D17 (log 16). -/
def Obligations.ProgramCounterTable : Prop :=
  ∀ (tick : Bool) (rnd : Byte) (s : State),
    (∀ (w : Word) (t : State), fetch s = .ok w → cycle tick rnd s = .next t →
      (∀ i, decode w = .ok i → t.pc.toNat = i.pcAfter s) ∧
      (∀ e, decode w = .error e → t.pc.toNat = s.pc.toNat + 2) ∧
      (∀ nnn, decode w = .ok (.call nnn) → ∀ h : s.sp.val < 16, (t.stack[s.sp.val]'h).toNat = s.pc.toNat + 2)) ∧
    (∀ f, cycle tick rnd s = .fault f → (perform tick (.cycle rnd) s).1 = s)

/-- R38, the writes of the access matrix: an instruction changes nothing but the parts, registers, stack slot and bytes
its row lists: a call the slot at `sp` alone, a return no slot (decision D14, log 21). That `I` stays under an access is
decision D24 (log 17). -/
def Obligations.WritesFollowAccessMatrix : Prop :=
  ∀ (i : Instr) (s t : State), exec i s = .next t →
    State.SameBut i.writes s t ∧ (∀ r : Reg, i.writesReg r = false → t.V[r] = s.V[r]) ∧
    (∀ j : Fin 16, j.val ≠ s.sp.val → t.stack[j] = s.stack[j]) ∧
    ∀ a, (∀ k, k < i.storedBytes → a ≠ s.ea k) → t.mem.byte a = s.mem.byte a

/-- R38, the reads: a part an instruction neither reads nor writes cannot influence it: change that part alone and the
outcome is the same with that part changed. -/
def Obligations.UnreadPartsDoNotMatter : Prop :=
  ∀ (i : Instr) (s : State),
    ((∀ x, i ≠ .skp x ∧ i ≠ .sknp x ∧ i ≠ .ldVxK x) →
      ∀ k, exec i { s with key := k } = mapNext (fun t => { t with key := k }) (exec i s)) ∧
    ((∀ x kk, i ≠ .rnd x kk) →
      ∀ b, exec i { s with rnd := b } = mapNext (fun t => { t with rnd := b }) (exec i s)) ∧
    ((∀ x, i ≠ .ldVxDT x ∧ i ≠ .ldDTVx x) →
      ∀ b, exec i { s with DT := b } = mapNext (fun t => { t with DT := b }) (exec i s)) ∧
    ((∀ x, i ≠ .ldSTVx x) →
      ∀ b, exec i { s with ST := b } = mapNext (fun t => { t with ST := b }) (exec i s)) ∧
    (i ≠ .cls → (∀ x y n, i ≠ .drw x y n) →
      ∀ d, exec i { s with fb := d } = mapNext (fun t => { t with fb := d }) (exec i s)) ∧
    (i ≠ .ret → (∀ nnn, i ≠ .call nnn) →
      ∀ p k, exec i { s with sp := p, stack := k } = mapNext (fun t => { t with sp := p, stack := k }) (exec i s)) ∧
    ((∀ x y n, i ≠ .drw x y n) → (∀ x, i ≠ .ldB x ∧ i ≠ .store x ∧ i ≠ .load x) →
      ∀ m, exec i { s with mem := m } = mapNext (fun t => { t with mem := m }) (exec i s)) ∧
    ((∀ x y n, i ≠ .drw x y n) → (∀ nnn, i ≠ .ldI nnn) →
      (∀ x, i ≠ .addI x ∧ i ≠ .ldF x ∧ i ≠ .ldB x ∧ i ≠ .store x ∧ i ≠ .load x) →
      ∀ v, exec i { s with I := v } = mapNext (fun t => { t with I := v }) (exec i s))

/-! ## Invariants -/

/-- The reset state is legal. -/
def Obligations.InvAtReset : Prop := State.reset.Inv

/-- R25 (derived there), with the canonical form of memory (log 5): every step from a legal state, reachable or not,
leads to a legal state. -/
def Obligations.StepKeepsInv : Prop :=
  ∀ s t : State, s.Inv → step s = .next t → t.Inv

/-- R25 (derived there): every host operation keeps a state legal, so after any sequence of them from reset `pc` is at
most 0x10FE. It speaks of a host that keeps to the operations (R272, log 22). -/
def Obligations.HostOperationsKeepInv : Prop :=
  (∀ (tick : Bool) (op : HostOp) (s : State), s.Inv → (perform tick op s).1.Inv) ∧
  ∀ (tick : Bool) (ops : List HostOp),
    (performAll tick ops State.reset).1.Inv ∧ (performAll tick ops State.reset).1.pc.toNat ≤ 0x10FE

/-- The model's form of memory (log 5): two canonical memories that read alike at every address are equal data. -/
def Obligations.CanonicalMemoryUnique : Prop :=
  ∀ m₁ m₂ : Memory, m₁.wf → m₂.wf → (∀ a, m₁.byte a = m₂.byte a) → m₁ = m₂

/-- R64 (derived there): a fetch reads memory as the instruction before it left it, both bytes of the word or one of
them stored by `Fx33` or `Fx55`, every other byte as before: right after a handler, at any address, and in the cycle
after the cycle that ran it. -/
def Obligations.StoreIsSeenByNextFetch : Prop :=
  (∀ (i : Instr) (s t : State), exec i s = .next t → ∀ a : Word, a.toNat ≤ 0xFFE →
    fetch { t with pc := a } = .ok (wordOfBytes (i.byteAfter s a.toNat) (i.byteAfter s (a.toNat + 1)))) ∧
  ∀ (tick : Bool) (rnd : Byte) (s t : State) (w : Word) (i : Instr),
    fetch s = .ok w → decode w = .ok i → cycle tick rnd s = .next t → t.pc.toNat ≤ 0xFFE →
    fetch t = .ok (wordOfBytes (i.byteAfter s t.pc.toNat) (i.byteAfter s (t.pc.toNat + 1)))

/-- R125 (convention D22): a jump to its own address leaves every piece of state as it was, but for the tick where one
is configured. The opcode latch, whose value between cycles is unspecified (log 4), and the model's count of cycles are
not among them. -/
def Obligations.SelfJumpStaysPut : Prop :=
  ∀ (tick : Bool) (rnd : Byte) (s : State), s.pc.toNat ≤ 0xFFE →
    (wordOfBytes (s.mem.byte s.pc.toNat) (s.mem.byte (s.pc.toNat + 1))).toNat = 0x1000 + s.pc.toNat →
    ∃ t, cycle tick rnd s = .next t ∧
      t = { s with
            DT := if tick then decay s.DT else s.DT
            ST := if tick then decay s.ST else s.ST
            opcode := t.opcode, rnd := t.rnd, cycles := t.cycles }
end

