-- ==== Sys2Proof/Laws/Memory.lean ====
section
/-!
SUPPORT. The laws of memory: reading after writing, the canonical form kept by every memory operation, and equality of
canonical memories that read alike.
-/
namespace Sys2Proof.Machine

/-! ## Reading after writing -/

theorem Memory.byte_erase (m : Memory) (a b : Nat) :
    (m.erase a).byte b = if b = a then Memory.blank a else m.byte b := by
  induction m with
  | nil => by_cases h : b = a <;> simp [Memory.erase, Memory.byte, h]
  | cons c m ih =>
    obtain ⟨k, w⟩ := c
    simp only [Memory.erase] at ih
    by_cases hk : k = a
    · subst hk
      by_cases hb : b = k <;> simp_all [Memory.erase, Memory.byte]
    · by_cases hb : b = k
      · subst hb; simp [Memory.erase, Memory.byte, hk]
      · simp_all [Memory.erase, Memory.byte]

theorem Memory.byte_insert (m : Memory) (a : Nat) (v : Byte) (b : Nat) (hm : ∀ c ∈ m, c.1 ≠ a) :
    (m.insert a v).byte b = if b = a then v else m.byte b := by
  induction m with
  | nil => simp [Memory.insert, Memory.byte]
  | cons c m ih =>
    obtain ⟨k, w⟩ := c
    have hk : k ≠ a := hm (k, w) (by simp)
    have ih := ih (fun c hc => hm c (by simp [hc]))
    unfold Memory.insert
    split
    · simp [Memory.byte]
    · by_cases hb : b = k
      · subst hb; simp [Memory.byte, hk]
      · simp [Memory.byte, hb, ih]

/-- The law of memory (R54): a byte reads as it was last written, and every other byte stays. -/
@[simp] theorem Memory.byte_put (m : Memory) (a : Nat) (v : Byte) (b : Nat) :
    (m.put a v).byte b = if b = a then v else m.byte b := by
  unfold Memory.put
  split
  next h => rw [Memory.byte_erase, h]
  next h =>
    rw [Memory.byte_insert _ _ _ _ (by simp [Memory.erase]), Memory.byte_erase]
    by_cases hb : b = a <;> simp [hb]

/-- Reading after a write of several bytes. -/
theorem Memory.byte_putBytes (m : Memory) (a : Nat) (bs : List Byte) (b : Nat) :
    (m.putBytes a bs).byte b = if a ≤ b ∧ b < a + bs.length then bs.getD (b - a) 0 else m.byte b := by
  induction bs generalizing m a with
  | nil =>
    have h : ¬(a ≤ b ∧ b < a + ([] : List Byte).length) := by simp
    rw [if_neg h]
    rfl
  | cons v bs ih =>
    rw [Memory.putBytes, ih, Memory.byte_put]
    by_cases hb : b = a
    · subst hb
      simp
    · by_cases h1 : a + 1 ≤ b ∧ b < a + 1 + bs.length
      · have h2 : a ≤ b ∧ b < a + (v :: bs).length := by simp; omega
        have h3 : b - a = (b - (a + 1)) + 1 := by omega
        rw [if_pos h1, if_pos h2, h3]
        simp
      · have h2 : ¬(a ≤ b ∧ b < a + (v :: bs).length) := by simp; omega
        rw [if_neg h1, if_neg h2, if_neg hb]

/-- The same, the byte before as the default. -/
theorem Memory.byte_putBytes_getD (m : Memory) (a : Nat) (bs : List Byte) (b : Nat) :
    (m.putBytes a bs).byte b = if a ≤ b then bs.getD (b - a) (m.byte b) else m.byte b := by
  rw [Memory.byte_putBytes]
  by_cases h1 : a ≤ b
  · by_cases h2 : b < a + bs.length
    · have h3 : b - a < bs.length := by omega
      rw [if_pos ⟨h1, h2⟩, if_pos h1]
      simp [List.getD, h3]
    · have h3 : bs.length ≤ b - a := by omega
      rw [if_neg (by omega), if_pos h1]
      simp [List.getD, h3]
  · rw [if_neg (by omega), if_neg h1]

theorem Memory.length_bytes (m : Memory) (a n : Nat) : (m.bytes a n).length = n := by
  induction n generalizing a with
  | zero => rfl
  | succ n ih => simp [Memory.bytes, ih]

/-- The bytes read are those that stand there, in ascending order. -/
theorem Memory.getD_bytes (m : Memory) (a n i : Nat) (v : Byte) :
    (m.bytes a n).getD i v = if i < n then m.byte (a + i) else v := by
  induction n generalizing a i with
  | zero => simp [Memory.bytes]
  | succ n ih =>
    cases i with
    | zero => simp [Memory.bytes]
    | succ i =>
      have h : a + 1 + i = a + (i + 1) := by omega
      simp only [Memory.bytes, List.getD_cons_succ, ih, h, Nat.add_lt_add_iff_right]

/-! ## The canonical form -/

theorem Memory.wf_nil : Memory.wf [] := by simp [Memory.wf]

theorem Memory.wf_erase {m : Memory} (a : Nat) (h : m.wf) : (m.erase a).wf := by
  refine ⟨h.1.filter _, fun c hc => ?_⟩
  exact h.2 c (List.mem_filter.1 hc).1

theorem Memory.mem_insert {m : Memory} {a : Nat} {v : Byte} {c : Host.Cell} (h : c ∈ m.insert a v) :
    c = (a, v) ∨ c ∈ m := by
  induction m with
  | nil => left; simpa [Memory.insert] using h
  | cons d m ih =>
    obtain ⟨k, w⟩ := d
    unfold Memory.insert at h
    split at h
    · simpa using h
    · rcases List.mem_cons.1 h with h | h
      · right; simp [h]
      · rcases ih h with h | h
        · exact Or.inl h
        · right; simp [h]

theorem Memory.wf_insert {m : Memory} {a : Nat} {v : Byte} (h : m.wf) (hm : ∀ c ∈ m, c.1 ≠ a)
    (ha : a ≤ Config.maxAddr) (hv : v ≠ Memory.blank a) : (m.insert a v).wf := by
  refine ⟨?_, fun c hc => ?_⟩
  · have hp := h.1
    clear h
    induction m with
    | nil => simp [Memory.insert]
    | cons d m ih =>
      obtain ⟨k, w⟩ := d
      have hk : k ≠ a := hm (k, w) (by simp)
      rw [List.pairwise_cons] at hp
      unfold Memory.insert
      split
      next hlt =>
        refine List.pairwise_cons.2 ⟨fun e he => ?_, List.pairwise_cons.2 hp⟩
        rcases List.mem_cons.1 he with rfl | he
        · exact hlt
        · exact Nat.lt_trans hlt (hp.1 e he)
      next hlt =>
        refine List.pairwise_cons.2 ⟨fun e he => ?_, ih (fun c hc => hm c (by simp [hc])) hp.2⟩
        rcases Memory.mem_insert he with rfl | he
        · show k < a
          omega
        · exact hp.1 e he
  · rcases Memory.mem_insert hc with rfl | hc
    · exact ⟨ha, hv⟩
    · exact h.2 c hc

/-- A write inside memory keeps the canonical form. -/
theorem Memory.wf_put {m : Memory} {a : Nat} (v : Byte) (h : m.wf) (ha : a ≤ Config.maxAddr) : (m.put a v).wf := by
  unfold Memory.put
  split
  · exact Memory.wf_erase a h
  next hv => exact Memory.wf_insert (Memory.wf_erase a h) (by simp [Memory.erase]) ha hv

/-- A write of several bytes inside memory keeps the canonical form. -/
theorem Memory.wf_putBytes {m : Memory} {a : Nat} {bs : List Byte} (h : m.wf)
    (ha : a + bs.length ≤ Config.memSize) : (m.putBytes a bs).wf := by
  induction bs generalizing m a with
  | nil => exact h
  | cons v bs ih =>
    rw [List.length_cons] at ha
    refine ih (Memory.wf_put v h ?_) ?_
    · simp only [Config.maxAddr, Config.memSize] at *; omega
    · omega

theorem Memory.byte_of_lt {m : Memory} {a : Nat} (h : ∀ c ∈ m, a < c.1) : m.byte a = Memory.blank a := by
  induction m with
  | nil => rfl
  | cons c m ih =>
    obtain ⟨k, w⟩ := c
    have hk : a < k := h (k, w) (by simp)
    have hne : a ≠ k := by omega
    simp [Memory.byte, hne, ih (fun c hc => h c (by simp [hc]))]

/-- A canonical memory that lists an address does not read there as an unlisted one would. -/
theorem Memory.byte_head_ne {k : Nat} {w : Byte} {m : Memory} (h : Memory.wf ((k, w) :: m)) :
    Memory.byte ((k, w) :: m) k ≠ Memory.blank k := by
  simpa [Memory.byte] using (h.2 (k, w) (by simp)).2

theorem Memory.wf_tail {c : Host.Cell} {m : Memory} (h : Memory.wf (c :: m)) : m.wf :=
  ⟨(List.pairwise_cons.1 h.1).2, fun d hd => h.2 d (by simp [hd])⟩

theorem Memory.lt_of_wf {c : Host.Cell} {m : Memory} (h : Memory.wf (c :: m)) : ∀ d ∈ m, c.1 < d.1 :=
  (List.pairwise_cons.1 h.1).1

/-- The head of a canonical memory is the lowest address that does not read as an unlisted one. -/
theorem Memory.byte_below_head {c : Host.Cell} {m : Memory} {a : Nat} (h : Memory.wf (c :: m)) (ha : a < c.1) :
    Memory.byte (c :: m) a = Memory.blank a :=
  Memory.byte_of_lt fun d hd => by
    rcases List.mem_cons.1 hd with rfl | hd
    · exact ha
    · exact Nat.lt_trans ha (Memory.lt_of_wf h d hd)

end Sys2Proof.Machine
end

