-- ==== Sys2Proof/Laws/State.lean ====
section
/-!
SUPPORT. One lemma per field per update of the state, each true by unfolding the update, so that no later proof unfolds
a record update.
-/
namespace Sys2Proof.Machine

@[simp] theorem State.reg_eq (s : State) (x : Reg) : s.reg x = s.V[x] := rfl

/-! ## setV -/

@[simp] theorem State.setV_V (s : State) (x : Reg) (v : Byte) : (s.setV x v).V = s.V.set x.val v x.isLt := rfl
@[simp] theorem State.setV_I (s : State) (x : Reg) (v : Byte) : (s.setV x v).I = s.I := rfl
@[simp] theorem State.setV_pc (s : State) (x : Reg) (v : Byte) : (s.setV x v).pc = s.pc := rfl
@[simp] theorem State.setV_sp (s : State) (x : Reg) (v : Byte) : (s.setV x v).sp = s.sp := rfl
@[simp] theorem State.setV_stack (s : State) (x : Reg) (v : Byte) : (s.setV x v).stack = s.stack := rfl
@[simp] theorem State.setV_DT (s : State) (x : Reg) (v : Byte) : (s.setV x v).DT = s.DT := rfl
@[simp] theorem State.setV_ST (s : State) (x : Reg) (v : Byte) : (s.setV x v).ST = s.ST := rfl
@[simp] theorem State.setV_key (s : State) (x : Reg) (v : Byte) : (s.setV x v).key = s.key := rfl
@[simp] theorem State.setV_fb (s : State) (x : Reg) (v : Byte) : (s.setV x v).fb = s.fb := rfl
@[simp] theorem State.setV_mem (s : State) (x : Reg) (v : Byte) : (s.setV x v).mem = s.mem := rfl
@[simp] theorem State.setV_opcode (s : State) (x : Reg) (v : Byte) : (s.setV x v).opcode = s.opcode := rfl
@[simp] theorem State.setV_rnd (s : State) (x : Reg) (v : Byte) : (s.setV x v).rnd = s.rnd := rfl
@[simp] theorem State.setV_cycles (s : State) (x : Reg) (v : Byte) : (s.setV x v).cycles = s.cycles := rfl
@[simp] theorem State.setV_diags (s : State) (x : Reg) (v : Byte) : (s.setV x v).diags = s.diags := rfl

/-! ## setVF -/

@[simp] theorem State.setVF_V (s : State) (v : Byte) : (s.setVF v).V = s.V.set 15 v := rfl
@[simp] theorem State.setVF_I (s : State) (v : Byte) : (s.setVF v).I = s.I := rfl
@[simp] theorem State.setVF_pc (s : State) (v : Byte) : (s.setVF v).pc = s.pc := rfl
@[simp] theorem State.setVF_sp (s : State) (v : Byte) : (s.setVF v).sp = s.sp := rfl
@[simp] theorem State.setVF_stack (s : State) (v : Byte) : (s.setVF v).stack = s.stack := rfl
@[simp] theorem State.setVF_DT (s : State) (v : Byte) : (s.setVF v).DT = s.DT := rfl
@[simp] theorem State.setVF_ST (s : State) (v : Byte) : (s.setVF v).ST = s.ST := rfl
@[simp] theorem State.setVF_key (s : State) (v : Byte) : (s.setVF v).key = s.key := rfl
@[simp] theorem State.setVF_fb (s : State) (v : Byte) : (s.setVF v).fb = s.fb := rfl
@[simp] theorem State.setVF_mem (s : State) (v : Byte) : (s.setVF v).mem = s.mem := rfl
@[simp] theorem State.setVF_opcode (s : State) (v : Byte) : (s.setVF v).opcode = s.opcode := rfl
@[simp] theorem State.setVF_rnd (s : State) (v : Byte) : (s.setVF v).rnd = s.rnd := rfl
@[simp] theorem State.setVF_cycles (s : State) (v : Byte) : (s.setVF v).cycles = s.cycles := rfl
@[simp] theorem State.setVF_diags (s : State) (v : Byte) : (s.setVF v).diags = s.diags := rfl

/-! ## setVThenVF -/

@[simp] theorem State.setVThenVF_V (s : State) (x : Reg) (v f : Byte) :
    (s.setVThenVF x v f).V = (s.V.set x.val v x.isLt).set 15 f := rfl
@[simp] theorem State.setVThenVF_I (s : State) (x : Reg) (v f : Byte) : (s.setVThenVF x v f).I = s.I := rfl
@[simp] theorem State.setVThenVF_pc (s : State) (x : Reg) (v f : Byte) : (s.setVThenVF x v f).pc = s.pc := rfl
@[simp] theorem State.setVThenVF_sp (s : State) (x : Reg) (v f : Byte) : (s.setVThenVF x v f).sp = s.sp := rfl
@[simp] theorem State.setVThenVF_stack (s : State) (x : Reg) (v f : Byte) :
    (s.setVThenVF x v f).stack = s.stack := rfl
@[simp] theorem State.setVThenVF_DT (s : State) (x : Reg) (v f : Byte) : (s.setVThenVF x v f).DT = s.DT := rfl
@[simp] theorem State.setVThenVF_ST (s : State) (x : Reg) (v f : Byte) : (s.setVThenVF x v f).ST = s.ST := rfl
@[simp] theorem State.setVThenVF_key (s : State) (x : Reg) (v f : Byte) : (s.setVThenVF x v f).key = s.key := rfl
@[simp] theorem State.setVThenVF_fb (s : State) (x : Reg) (v f : Byte) : (s.setVThenVF x v f).fb = s.fb := rfl
@[simp] theorem State.setVThenVF_mem (s : State) (x : Reg) (v f : Byte) : (s.setVThenVF x v f).mem = s.mem := rfl
@[simp] theorem State.setVThenVF_opcode (s : State) (x : Reg) (v f : Byte) :
    (s.setVThenVF x v f).opcode = s.opcode := rfl
@[simp] theorem State.setVThenVF_rnd (s : State) (x : Reg) (v f : Byte) : (s.setVThenVF x v f).rnd = s.rnd := rfl
@[simp] theorem State.setVThenVF_cycles (s : State) (x : Reg) (v f : Byte) :
    (s.setVThenVF x v f).cycles = s.cycles := rfl
@[simp] theorem State.setVThenVF_diags (s : State) (x : Reg) (v f : Byte) :
    (s.setVThenVF x v f).diags = s.diags := rfl

/-! ## setI -/

@[simp] theorem State.setI_V (s : State) (v : Word) : (s.setI v).V = s.V := rfl
@[simp] theorem State.setI_I (s : State) (v : Word) : (s.setI v).I = v := rfl
@[simp] theorem State.setI_pc (s : State) (v : Word) : (s.setI v).pc = s.pc := rfl
@[simp] theorem State.setI_sp (s : State) (v : Word) : (s.setI v).sp = s.sp := rfl
@[simp] theorem State.setI_stack (s : State) (v : Word) : (s.setI v).stack = s.stack := rfl
@[simp] theorem State.setI_DT (s : State) (v : Word) : (s.setI v).DT = s.DT := rfl
@[simp] theorem State.setI_ST (s : State) (v : Word) : (s.setI v).ST = s.ST := rfl
@[simp] theorem State.setI_key (s : State) (v : Word) : (s.setI v).key = s.key := rfl
@[simp] theorem State.setI_fb (s : State) (v : Word) : (s.setI v).fb = s.fb := rfl
@[simp] theorem State.setI_mem (s : State) (v : Word) : (s.setI v).mem = s.mem := rfl
@[simp] theorem State.setI_opcode (s : State) (v : Word) : (s.setI v).opcode = s.opcode := rfl
@[simp] theorem State.setI_rnd (s : State) (v : Word) : (s.setI v).rnd = s.rnd := rfl
@[simp] theorem State.setI_cycles (s : State) (v : Word) : (s.setI v).cycles = s.cycles := rfl
@[simp] theorem State.setI_diags (s : State) (v : Word) : (s.setI v).diags = s.diags := rfl

/-! ## setPc -/

@[simp] theorem State.setPc_V (s : State) (v : Word) : (s.setPc v).V = s.V := rfl
@[simp] theorem State.setPc_I (s : State) (v : Word) : (s.setPc v).I = s.I := rfl
@[simp] theorem State.setPc_pc (s : State) (v : Word) : (s.setPc v).pc = v := rfl
@[simp] theorem State.setPc_sp (s : State) (v : Word) : (s.setPc v).sp = s.sp := rfl
@[simp] theorem State.setPc_stack (s : State) (v : Word) : (s.setPc v).stack = s.stack := rfl
@[simp] theorem State.setPc_DT (s : State) (v : Word) : (s.setPc v).DT = s.DT := rfl
@[simp] theorem State.setPc_ST (s : State) (v : Word) : (s.setPc v).ST = s.ST := rfl
@[simp] theorem State.setPc_key (s : State) (v : Word) : (s.setPc v).key = s.key := rfl
@[simp] theorem State.setPc_fb (s : State) (v : Word) : (s.setPc v).fb = s.fb := rfl
@[simp] theorem State.setPc_mem (s : State) (v : Word) : (s.setPc v).mem = s.mem := rfl
@[simp] theorem State.setPc_opcode (s : State) (v : Word) : (s.setPc v).opcode = s.opcode := rfl
@[simp] theorem State.setPc_rnd (s : State) (v : Word) : (s.setPc v).rnd = s.rnd := rfl
@[simp] theorem State.setPc_cycles (s : State) (v : Word) : (s.setPc v).cycles = s.cycles := rfl
@[simp] theorem State.setPc_diags (s : State) (v : Word) : (s.setPc v).diags = s.diags := rfl

/-! ## setDT -/

@[simp] theorem State.setDT_V (s : State) (v : Byte) : (s.setDT v).V = s.V := rfl
@[simp] theorem State.setDT_I (s : State) (v : Byte) : (s.setDT v).I = s.I := rfl
@[simp] theorem State.setDT_pc (s : State) (v : Byte) : (s.setDT v).pc = s.pc := rfl
@[simp] theorem State.setDT_sp (s : State) (v : Byte) : (s.setDT v).sp = s.sp := rfl
@[simp] theorem State.setDT_stack (s : State) (v : Byte) : (s.setDT v).stack = s.stack := rfl
@[simp] theorem State.setDT_DT (s : State) (v : Byte) : (s.setDT v).DT = v := rfl
@[simp] theorem State.setDT_ST (s : State) (v : Byte) : (s.setDT v).ST = s.ST := rfl
@[simp] theorem State.setDT_key (s : State) (v : Byte) : (s.setDT v).key = s.key := rfl
@[simp] theorem State.setDT_fb (s : State) (v : Byte) : (s.setDT v).fb = s.fb := rfl
@[simp] theorem State.setDT_mem (s : State) (v : Byte) : (s.setDT v).mem = s.mem := rfl
@[simp] theorem State.setDT_opcode (s : State) (v : Byte) : (s.setDT v).opcode = s.opcode := rfl
@[simp] theorem State.setDT_rnd (s : State) (v : Byte) : (s.setDT v).rnd = s.rnd := rfl
@[simp] theorem State.setDT_cycles (s : State) (v : Byte) : (s.setDT v).cycles = s.cycles := rfl
@[simp] theorem State.setDT_diags (s : State) (v : Byte) : (s.setDT v).diags = s.diags := rfl

/-! ## setST -/

@[simp] theorem State.setST_V (s : State) (v : Byte) : (s.setST v).V = s.V := rfl
@[simp] theorem State.setST_I (s : State) (v : Byte) : (s.setST v).I = s.I := rfl
@[simp] theorem State.setST_pc (s : State) (v : Byte) : (s.setST v).pc = s.pc := rfl
@[simp] theorem State.setST_sp (s : State) (v : Byte) : (s.setST v).sp = s.sp := rfl
@[simp] theorem State.setST_stack (s : State) (v : Byte) : (s.setST v).stack = s.stack := rfl
@[simp] theorem State.setST_DT (s : State) (v : Byte) : (s.setST v).DT = s.DT := rfl
@[simp] theorem State.setST_ST (s : State) (v : Byte) : (s.setST v).ST = v := rfl
@[simp] theorem State.setST_key (s : State) (v : Byte) : (s.setST v).key = s.key := rfl
@[simp] theorem State.setST_fb (s : State) (v : Byte) : (s.setST v).fb = s.fb := rfl
@[simp] theorem State.setST_mem (s : State) (v : Byte) : (s.setST v).mem = s.mem := rfl
@[simp] theorem State.setST_opcode (s : State) (v : Byte) : (s.setST v).opcode = s.opcode := rfl
@[simp] theorem State.setST_rnd (s : State) (v : Byte) : (s.setST v).rnd = s.rnd := rfl
@[simp] theorem State.setST_cycles (s : State) (v : Byte) : (s.setST v).cycles = s.cycles := rfl
@[simp] theorem State.setST_diags (s : State) (v : Byte) : (s.setST v).diags = s.diags := rfl

/-! ## setFb -/

@[simp] theorem State.setFb_V (s : State) (d : FrameBuffer) : (s.setFb d).V = s.V := rfl
@[simp] theorem State.setFb_I (s : State) (d : FrameBuffer) : (s.setFb d).I = s.I := rfl
@[simp] theorem State.setFb_pc (s : State) (d : FrameBuffer) : (s.setFb d).pc = s.pc := rfl
@[simp] theorem State.setFb_sp (s : State) (d : FrameBuffer) : (s.setFb d).sp = s.sp := rfl
@[simp] theorem State.setFb_stack (s : State) (d : FrameBuffer) : (s.setFb d).stack = s.stack := rfl
@[simp] theorem State.setFb_DT (s : State) (d : FrameBuffer) : (s.setFb d).DT = s.DT := rfl
@[simp] theorem State.setFb_ST (s : State) (d : FrameBuffer) : (s.setFb d).ST = s.ST := rfl
@[simp] theorem State.setFb_key (s : State) (d : FrameBuffer) : (s.setFb d).key = s.key := rfl
@[simp] theorem State.setFb_fb (s : State) (d : FrameBuffer) : (s.setFb d).fb = d := rfl
@[simp] theorem State.setFb_mem (s : State) (d : FrameBuffer) : (s.setFb d).mem = s.mem := rfl
@[simp] theorem State.setFb_opcode (s : State) (d : FrameBuffer) : (s.setFb d).opcode = s.opcode := rfl
@[simp] theorem State.setFb_rnd (s : State) (d : FrameBuffer) : (s.setFb d).rnd = s.rnd := rfl
@[simp] theorem State.setFb_cycles (s : State) (d : FrameBuffer) : (s.setFb d).cycles = s.cycles := rfl
@[simp] theorem State.setFb_diags (s : State) (d : FrameBuffer) : (s.setFb d).diags = s.diags := rfl

/-! ## setMem -/

@[simp] theorem State.setMem_V (s : State) (m : Memory) : (s.setMem m).V = s.V := rfl
@[simp] theorem State.setMem_I (s : State) (m : Memory) : (s.setMem m).I = s.I := rfl
@[simp] theorem State.setMem_pc (s : State) (m : Memory) : (s.setMem m).pc = s.pc := rfl
@[simp] theorem State.setMem_sp (s : State) (m : Memory) : (s.setMem m).sp = s.sp := rfl
@[simp] theorem State.setMem_stack (s : State) (m : Memory) : (s.setMem m).stack = s.stack := rfl
@[simp] theorem State.setMem_DT (s : State) (m : Memory) : (s.setMem m).DT = s.DT := rfl
@[simp] theorem State.setMem_ST (s : State) (m : Memory) : (s.setMem m).ST = s.ST := rfl
@[simp] theorem State.setMem_key (s : State) (m : Memory) : (s.setMem m).key = s.key := rfl
@[simp] theorem State.setMem_fb (s : State) (m : Memory) : (s.setMem m).fb = s.fb := rfl
@[simp] theorem State.setMem_mem (s : State) (m : Memory) : (s.setMem m).mem = m := rfl
@[simp] theorem State.setMem_opcode (s : State) (m : Memory) : (s.setMem m).opcode = s.opcode := rfl
@[simp] theorem State.setMem_rnd (s : State) (m : Memory) : (s.setMem m).rnd = s.rnd := rfl
@[simp] theorem State.setMem_cycles (s : State) (m : Memory) : (s.setMem m).cycles = s.cycles := rfl
@[simp] theorem State.setMem_diags (s : State) (m : Memory) : (s.setMem m).diags = s.diags := rfl

/-! ## setKey -/

@[simp] theorem State.setKey_V (s : State) (k : Vector Bool 16) : (s.setKey k).V = s.V := rfl
@[simp] theorem State.setKey_I (s : State) (k : Vector Bool 16) : (s.setKey k).I = s.I := rfl
@[simp] theorem State.setKey_pc (s : State) (k : Vector Bool 16) : (s.setKey k).pc = s.pc := rfl
@[simp] theorem State.setKey_sp (s : State) (k : Vector Bool 16) : (s.setKey k).sp = s.sp := rfl
@[simp] theorem State.setKey_stack (s : State) (k : Vector Bool 16) : (s.setKey k).stack = s.stack := rfl
@[simp] theorem State.setKey_DT (s : State) (k : Vector Bool 16) : (s.setKey k).DT = s.DT := rfl
@[simp] theorem State.setKey_ST (s : State) (k : Vector Bool 16) : (s.setKey k).ST = s.ST := rfl
@[simp] theorem State.setKey_key (s : State) (k : Vector Bool 16) : (s.setKey k).key = k := rfl
@[simp] theorem State.setKey_fb (s : State) (k : Vector Bool 16) : (s.setKey k).fb = s.fb := rfl
@[simp] theorem State.setKey_mem (s : State) (k : Vector Bool 16) : (s.setKey k).mem = s.mem := rfl
@[simp] theorem State.setKey_opcode (s : State) (k : Vector Bool 16) : (s.setKey k).opcode = s.opcode := rfl
@[simp] theorem State.setKey_rnd (s : State) (k : Vector Bool 16) : (s.setKey k).rnd = s.rnd := rfl
@[simp] theorem State.setKey_cycles (s : State) (k : Vector Bool 16) : (s.setKey k).cycles = s.cycles := rfl
@[simp] theorem State.setKey_diags (s : State) (k : Vector Bool 16) : (s.setKey k).diags = s.diags := rfl

/-! ## skipIf -/

@[simp] theorem State.skipIf_V (s : State) (c : Bool) : (s.skipIf c).V = s.V := rfl
@[simp] theorem State.skipIf_I (s : State) (c : Bool) : (s.skipIf c).I = s.I := rfl
@[simp] theorem State.skipIf_pc (s : State) (c : Bool) : (s.skipIf c).pc = if c then s.pc + 2 else s.pc := rfl
@[simp] theorem State.skipIf_sp (s : State) (c : Bool) : (s.skipIf c).sp = s.sp := rfl
@[simp] theorem State.skipIf_stack (s : State) (c : Bool) : (s.skipIf c).stack = s.stack := rfl
@[simp] theorem State.skipIf_DT (s : State) (c : Bool) : (s.skipIf c).DT = s.DT := rfl
@[simp] theorem State.skipIf_ST (s : State) (c : Bool) : (s.skipIf c).ST = s.ST := rfl
@[simp] theorem State.skipIf_key (s : State) (c : Bool) : (s.skipIf c).key = s.key := rfl
@[simp] theorem State.skipIf_fb (s : State) (c : Bool) : (s.skipIf c).fb = s.fb := rfl
@[simp] theorem State.skipIf_mem (s : State) (c : Bool) : (s.skipIf c).mem = s.mem := rfl
@[simp] theorem State.skipIf_opcode (s : State) (c : Bool) : (s.skipIf c).opcode = s.opcode := rfl
@[simp] theorem State.skipIf_rnd (s : State) (c : Bool) : (s.skipIf c).rnd = s.rnd := rfl
@[simp] theorem State.skipIf_cycles (s : State) (c : Bool) : (s.skipIf c).cycles = s.cycles := rfl
@[simp] theorem State.skipIf_diags (s : State) (c : Bool) : (s.skipIf c).diags = s.diags := rfl

/-! ## tickIf -/

@[simp] theorem State.tickIf_V (s : State) (on : Bool) : (s.tickIf on).V = s.V := rfl
@[simp] theorem State.tickIf_I (s : State) (on : Bool) : (s.tickIf on).I = s.I := rfl
@[simp] theorem State.tickIf_pc (s : State) (on : Bool) : (s.tickIf on).pc = s.pc := rfl
@[simp] theorem State.tickIf_sp (s : State) (on : Bool) : (s.tickIf on).sp = s.sp := rfl
@[simp] theorem State.tickIf_stack (s : State) (on : Bool) : (s.tickIf on).stack = s.stack := rfl
@[simp] theorem State.tickIf_DT (s : State) (on : Bool) : (s.tickIf on).DT = if on then decay s.DT else s.DT := rfl
@[simp] theorem State.tickIf_ST (s : State) (on : Bool) : (s.tickIf on).ST = if on then decay s.ST else s.ST := rfl
@[simp] theorem State.tickIf_key (s : State) (on : Bool) : (s.tickIf on).key = s.key := rfl
@[simp] theorem State.tickIf_fb (s : State) (on : Bool) : (s.tickIf on).fb = s.fb := rfl
@[simp] theorem State.tickIf_mem (s : State) (on : Bool) : (s.tickIf on).mem = s.mem := rfl
@[simp] theorem State.tickIf_opcode (s : State) (on : Bool) : (s.tickIf on).opcode = s.opcode := rfl
@[simp] theorem State.tickIf_rnd (s : State) (on : Bool) : (s.tickIf on).rnd = s.rnd := rfl
@[simp] theorem State.tickIf_cycles (s : State) (on : Bool) : (s.tickIf on).cycles = s.cycles := rfl
@[simp] theorem State.tickIf_diags (s : State) (on : Bool) : (s.tickIf on).diags = s.diags := rfl

/-! ## report -/

@[simp] theorem State.report_V (s : State) : (s.report).V = s.V := rfl
@[simp] theorem State.report_I (s : State) : (s.report).I = s.I := rfl
@[simp] theorem State.report_pc (s : State) : (s.report).pc = s.pc := rfl
@[simp] theorem State.report_sp (s : State) : (s.report).sp = s.sp := rfl
@[simp] theorem State.report_stack (s : State) : (s.report).stack = s.stack := rfl
@[simp] theorem State.report_DT (s : State) : (s.report).DT = s.DT := rfl
@[simp] theorem State.report_ST (s : State) : (s.report).ST = s.ST := rfl
@[simp] theorem State.report_key (s : State) : (s.report).key = s.key := rfl
@[simp] theorem State.report_fb (s : State) : (s.report).fb = s.fb := rfl
@[simp] theorem State.report_mem (s : State) : (s.report).mem = s.mem := rfl
@[simp] theorem State.report_opcode (s : State) : (s.report).opcode = s.opcode := rfl
@[simp] theorem State.report_rnd (s : State) : (s.report).rnd = s.rnd := rfl
@[simp] theorem State.report_cycles (s : State) : (s.report).cycles = s.cycles := rfl
@[simp] theorem State.report_diags (s : State) : (s.report).diags = ⟨s.opcode, s.instrAddr⟩ :: s.diags := rfl

/-! ## enter -/

@[simp] theorem enter_V (s : State) (w : Word) (r : Byte) : (enter w r s).V = s.V := rfl
@[simp] theorem enter_I (s : State) (w : Word) (r : Byte) : (enter w r s).I = s.I := rfl
@[simp] theorem enter_pc (s : State) (w : Word) (r : Byte) : (enter w r s).pc = s.pc + 2 := rfl
@[simp] theorem enter_sp (s : State) (w : Word) (r : Byte) : (enter w r s).sp = s.sp := rfl
@[simp] theorem enter_stack (s : State) (w : Word) (r : Byte) : (enter w r s).stack = s.stack := rfl
@[simp] theorem enter_DT (s : State) (w : Word) (r : Byte) : (enter w r s).DT = s.DT := rfl
@[simp] theorem enter_ST (s : State) (w : Word) (r : Byte) : (enter w r s).ST = s.ST := rfl
@[simp] theorem enter_key (s : State) (w : Word) (r : Byte) : (enter w r s).key = s.key := rfl
@[simp] theorem enter_fb (s : State) (w : Word) (r : Byte) : (enter w r s).fb = s.fb := rfl
@[simp] theorem enter_mem (s : State) (w : Word) (r : Byte) : (enter w r s).mem = s.mem := rfl
@[simp] theorem enter_opcode (s : State) (w : Word) (r : Byte) : (enter w r s).opcode = w := rfl
@[simp] theorem enter_rnd (s : State) (w : Word) (r : Byte) : (enter w r s).rnd = r := rfl
@[simp] theorem enter_cycles (s : State) (w : Word) (r : Byte) : (enter w r s).cycles = s.cycles := rfl
@[simp] theorem enter_diags (s : State) (w : Word) (r : Byte) : (enter w r s).diags = s.diags := rfl

/-! ## endCycle -/

@[simp] theorem endCycle_V (s : State) (tick : Bool) : (endCycle tick s).V = s.V := rfl
@[simp] theorem endCycle_I (s : State) (tick : Bool) : (endCycle tick s).I = s.I := rfl
@[simp] theorem endCycle_pc (s : State) (tick : Bool) : (endCycle tick s).pc = s.pc := rfl
@[simp] theorem endCycle_sp (s : State) (tick : Bool) : (endCycle tick s).sp = s.sp := rfl
@[simp] theorem endCycle_stack (s : State) (tick : Bool) : (endCycle tick s).stack = s.stack := rfl
@[simp] theorem endCycle_DT (s : State) (tick : Bool) :
    (endCycle tick s).DT = if tick then decay s.DT else s.DT := rfl
@[simp] theorem endCycle_ST (s : State) (tick : Bool) :
    (endCycle tick s).ST = if tick then decay s.ST else s.ST := rfl
@[simp] theorem endCycle_key (s : State) (tick : Bool) : (endCycle tick s).key = s.key := rfl
@[simp] theorem endCycle_fb (s : State) (tick : Bool) : (endCycle tick s).fb = s.fb := rfl
@[simp] theorem endCycle_mem (s : State) (tick : Bool) : (endCycle tick s).mem = s.mem := rfl
@[simp] theorem endCycle_opcode (s : State) (tick : Bool) :
    (endCycle tick s).opcode = Config.staleOpcode s.cycles := rfl
@[simp] theorem endCycle_rnd (s : State) (tick : Bool) : (endCycle tick s).rnd = s.rnd := rfl
@[simp] theorem endCycle_cycles (s : State) (tick : Bool) : (endCycle tick s).cycles = s.cycles + 1 := rfl
@[simp] theorem endCycle_diags (s : State) (tick : Bool) : (endCycle tick s).diags = s.diags := rfl

end Sys2Proof.Machine
end

