-- ==== Sys2Proof/Laws/Ops.lean ====
section
/-!
SUPPORT. What each shared operation does, said once: registers, the call stack, the bounds check, the loops of `Fx55`
and `Fx65`, the keypad, the timers and drawing.
-/
namespace Sys2Proof.Machine

/-! ## Registers -/

/-- Reading a register after writing one. -/
theorem getElem_setReg (V : Vector Byte 16) (x y : Reg) (v : Byte) :
    (V.set x.val v x.isLt)[y] = if y = x then v else V[y] := by
  by_cases h : y = x
  · subst h; simp
  · have h' : x.val ≠ y.val := fun e => h (Fin.ext e.symm)
    simp [h, Vector.getElem_set_ne _ _ h']

theorem State.setV_V_get (s : State) (x y : Reg) (v : Byte) :
    (s.setV x v).V[y] = if y = x then v else s.V[y] := getElem_setReg s.V x y v

theorem State.setVF_V_get (s : State) (y : Reg) (v : Byte) :
    (s.setVF v).V[y] = if y = regVF then v else s.V[y] := getElem_setReg s.V regVF y v

/-- A result and then the flag: the flag wins where both name VF (R163). -/
theorem State.setVThenVF_V_get (s : State) (x y : Reg) (v f : Byte) :
    (s.setVThenVF x v f).V[y] = if y = regVF then f else if y = x then v else s.V[y] := by
  rw [State.setVThenVF, State.setVF_V_get, State.setV_V_get]

/-! ## Loading V0 to Vx (R180) -/

/-- A load of registers changes nothing but registers. -/
theorem State.loadRegs_eq (s : State) (base n : Nat) :
    s.loadRegs base n = { s with V := (s.loadRegs base n).V } := by
  induction n with
  | zero => rfl
  | succ n ih =>
    simp only [State.loadRegs]
    split
    · conv_lhs => rw [ih]
      rfl
    · exact ih

/-- The first `n` registers are loaded from `base` upward and the others stay. -/
theorem State.loadRegs_V_get (s : State) (base n : Nat) (r : Reg) :
    (s.loadRegs base n).V[r] = if r.val < n then s.mem.byte (base + r.val) else s.V[r] := by
  induction n with
  | zero => simp [State.loadRegs]
  | succ n ih =>
    simp only [State.loadRegs]
    split
    next h =>
      rw [State.setV_V_get, ih]
      by_cases hr : r = ⟨n, h⟩
      · subst hr; simp
      · have hne : r.val ≠ n := fun e => hr (Fin.ext e)
        have : (r.val < n + 1) = (r.val < n) := by simp only [eq_iff_iff]; omega
        simp [hr, this]
    next h =>
      rw [ih]
      have : (r.val < n + 1) = (r.val < n) := by simp only [eq_iff_iff]; omega
      simp [this]

/-! ## Storing V0 to Vx (R178) -/

theorem State.length_regsTo (s : State) (x : Reg) : (s.regsTo x).length = x.val + 1 := by
  simp [State.regsTo]

theorem State.getD_regsTo (s : State) (x r : Reg) (h : r ≤ x) : (s.regsTo x).getD r.val 0 = s.V[r] := by
  have h' : r.val < x.val + 1 := Nat.lt_succ_of_le h
  simp [State.regsTo, List.getD_eq_getElem?_getD, h']

/-! ## The bounds check (R56 to R58) -/

theorem inBounds_iff (base n : Nat) : inBounds base n = true ↔ n = 0 ∨ base + n ≤ 4096 := by
  simp [inBounds]

/-! ## Call stack (R27) -/

/-- A push answers exactly when fewer than 16 addresses are held. -/
theorem State.push?_eq_none (s : State) (v : Word) : s.push? v = none ↔ s.sp.val = 16 := by
  have := s.sp.isLt
  unfold State.push?
  split <;> simp <;> omega

/-- What a push does: the slot `sp` takes the value, `sp` goes up by one, nothing else changes. -/
theorem State.push?_spec (s : State) (v : Word) (h : s.sp.val < 16) :
    s.push? v = some { s with stack := s.stack.set s.sp.val v h, sp := ⟨s.sp.val + 1, by omega⟩ } := by
  simp [State.push?, h]

theorem State.pop?_eq_none (s : State) : s.pop? = none ↔ s.sp.val = 0 := by
  unfold State.pop?
  split <;> simp <;> omega

/-- What a pop does: the top is answered and `sp` goes down by one, nothing else changes. -/
theorem State.pop?_spec (s : State) (h : 0 < s.sp.val) :
    s.pop? = some (s.stack[s.sp.val - 1]'(by omega), { s with sp := ⟨s.sp.val - 1, by omega⟩ }) := by
  simp [State.pop?, h]

/-! ## Keypad (R204, R208) -/

theorem State.keyAt?_eq_none (s : State) (k : Byte) : s.keyAt? k = none ↔ 15 < k.toNat := by
  unfold State.keyAt?
  split <;> simp <;> omega

theorem State.keyAt?_spec (s : State) (k : Byte) (h : k.toNat < 16) :
    s.keyAt? k = some (s.key[k.toNat]'h) := by
  simp [State.keyAt?, h]

theorem mem_allKeys (k : Reg) : k ∈ allKeys := by revert k; decide

theorem allKeys_sorted : allKeys.Pairwise (· < ·) := by decide

theorem State.lowestKey?_eq_none (s : State) : s.lowestKey? = none ↔ ∀ k : Reg, s.key[k] = false := by
  simp [State.lowestKey?, mem_allKeys]

/-- The key found is pressed and every lower key is not. -/
theorem State.lowestKey?_eq_some (s : State) (k : Reg) :
    s.lowestKey? = some k ↔ s.key[k] = true ∧ ∀ j : Reg, j < k → s.key[j] = false := by
  unfold State.lowestKey?
  rw [List.find?_eq_some_iff_append]
  constructor
  · rintro ⟨hk, as, bs, hsplit, has⟩
    refine ⟨by simpa using hk, fun j hj => ?_⟩
    have hmem : j ∈ as ++ k :: bs := hsplit ▸ mem_allKeys j
    have hsort := hsplit ▸ allKeys_sorted
    rw [List.pairwise_append, List.pairwise_cons] at hsort
    rcases List.mem_append.1 hmem with h | h
    · simpa using has j h
    · rcases List.mem_cons.1 h with rfl | h
      · exact absurd hj (lt_irrefl _)
      · exact absurd (lt_trans hj (hsort.2.1.1 j h)) (lt_irrefl _)
  · rintro ⟨hk, hlow⟩
    obtain ⟨as, bs, hsplit⟩ := List.append_of_mem (mem_allKeys k)
    have hsort := hsplit ▸ allKeys_sorted
    rw [List.pairwise_append] at hsort
    refine ⟨by simpa using hk, as, bs, hsplit, fun j hj => ?_⟩
    simpa using hlow j (hsort.2.2 j hj k (by simp))

/-! ## Timers (R120) -/

theorem decay_toNat (t : Byte) : (decay t).toNat = t.toNat - 1 := by
  unfold decay
  split
  next h => subst h; rfl
  next h =>
    have hpos : t.toNat ≠ 0 := fun e => h (BitVec.eq_of_toNat_eq (by simpa using e))
    have := t.isLt
    rw [BitVec.toNat_sub]
    simp
    omega

/-! ## Drawing (R192 to R196) -/

theorem px_set (fb : FrameBuffer) (r c : Nat) (hr : r < 32) (hc : c < 64) (v : Bool) (i : Fin 32) (j : Fin 64) :
    (fb.set r ((fb[r]'hr).set c v hc) hr)[i][j] = if i.val = r ∧ j.val = c then v else fb[i][j] := by
  by_cases hi : i.val = r
  · by_cases hj : j.val = c
    · subst hi; subst hj; simp
    · have hj' : c ≠ j.val := fun e => hj e.symm
      subst hi
      simp [hj, Vector.getElem_set_ne _ _ hj']
  · have hi' : r ≠ i.val := fun e => hi e.symm
    simp [hi, Vector.getElem_set_ne _ _ hi']

/-- Plotting toggles exactly the pixel at row `r`, column `c`, if there is one. -/
theorem Canvas.plot_px (d : Canvas) (r c : Nat) (i : Fin 32) (j : Fin 64) :
    (d.plot r c).fb[i][j] = (d.fb[i][j] ^^ decide (i.val = r ∧ j.val = c)) := by
  unfold Canvas.plot
  split
  next h =>
    rw [px_set]
    by_cases hij : i.val = r ∧ j.val = c
    · obtain ⟨rfl, rfl⟩ := hij
      simp
    · simp [hij]
  next h =>
    have hij : ¬(i.val = r ∧ j.val = c) := fun e => h ⟨e.1 ▸ i.isLt, e.2 ▸ j.isLt⟩
    simp [hij]

/-- Plotting collides exactly when that pixel was on. -/
theorem Canvas.plot_collision (d : Canvas) (r c : Nat) :
    (d.plot r c).collision = true ↔
      d.collision = true ∨ ∃ (i : Fin 32) (j : Fin 64), (i.val = r ∧ j.val = c) ∧ d.fb[i][j] = true := by
  unfold Canvas.plot
  split
  next h =>
    simp only [Bool.or_eq_true]
    refine or_congr_right ⟨fun e => ⟨⟨r, h.1⟩, ⟨c, h.2⟩, ⟨rfl, rfl⟩, e⟩, ?_⟩
    rintro ⟨i, j, ⟨rfl, rfl⟩, e⟩
    exact e
  next h =>
    refine ⟨Or.inl, ?_⟩
    rintro (e | ⟨i, j, ⟨rfl, rfl⟩, _⟩)
    · exact e
    · exact absurd ⟨i.isLt, j.isLt⟩ h

/-- Whether the first `k` bits of a sprite row at row `r`, column `c` set a bit at `(i, j)`. -/
def rowBit (r c : Nat) (bits : Byte) (k i j : Nat) : Bool :=
  decide (i = r ∧ c ≤ j ∧ j < c + k) && bits.getLsbD (7 - (j - c))

theorem rowBit_succ (r c : Nat) (bits : Byte) (k i j : Nat) :
    rowBit r c bits (k + 1) i j =
      (rowBit r c bits k i j || (decide (i = r ∧ j = c + k) && bits.getLsbD (7 - k))) := by
  unfold rowBit
  by_cases hj : j = c + k
  · subst hj
    by_cases hi : i = r <;> simp [hi]
  · have : (j < c + (k + 1)) = (j < c + k) := by simp only [eq_iff_iff]; omega
    simp [hj, this]

theorem Canvas.plotBits_px (d : Canvas) (r c : Nat) (bits : Byte) (k : Nat) (i : Fin 32) (j : Fin 64) :
    (d.plotBits r c bits k).fb[i][j] = (d.fb[i][j] ^^ rowBit r c bits k i j) := by
  induction k with
  | zero =>
    have h : rowBit r c bits 0 i j = false := by simp [rowBit]
    rw [h, Bool.xor_false]
    rfl
  | succ k ih =>
    rw [rowBit_succ]
    unfold Canvas.plotBits
    split
    next hb =>
      rw [Canvas.plot_px, ih, hb]
      by_cases hij : i.val = r ∧ j.val = c + k
      · have hold : rowBit r c bits k i j = false := by simp [rowBit, hij.2]
        rw [hold]
        simp only [hij, and_self, decide_true, Bool.xor_false, Bool.false_or, Bool.and_true]
      · simp [hij]
    next hb =>
      rw [ih, Bool.eq_false_iff.2 hb]
      simp

theorem Canvas.plotBits_collision (d : Canvas) (r c : Nat) (bits : Byte) (k : Nat) :
    (d.plotBits r c bits k).collision = true ↔
      d.collision = true ∨ ∃ (i : Fin 32) (j : Fin 64), rowBit r c bits k i j = true ∧ d.fb[i][j] = true := by
  induction k with
  | zero =>
    refine ⟨Or.inl, ?_⟩
    rintro (e | ⟨i, j, e, _⟩)
    · exact e
    · simp [rowBit] at e; omega
  | succ k ih =>
    unfold Canvas.plotBits
    split
    next hb =>
      rw [Canvas.plot_collision, ih, or_assoc]
      refine or_congr_right ⟨?_, ?_⟩
      · rintro (⟨i, j, hbit, e⟩ | ⟨i, j, hij, e⟩)
        · exact ⟨i, j, by rw [rowBit_succ, hbit]; rfl, e⟩
        · rw [Canvas.plotBits_px] at e
          have hold : rowBit r c bits k i j = false := by simp [rowBit, hij.2]
          rw [hold, Bool.xor_false] at e
          exact ⟨i, j, by rw [rowBit_succ, hb]; simp [hij], e⟩
      · rintro ⟨i, j, hbit, e⟩
        rw [rowBit_succ, hb, Bool.and_true, Bool.or_eq_true] at hbit
        rcases hbit with h | h
        · exact Or.inl ⟨i, j, h, e⟩
        · have hij : i.val = r ∧ j.val = c + k := of_decide_eq_true h
          have hold : rowBit r c bits k i j = false := by simp [rowBit, hij.2]
          exact Or.inr ⟨i, j, hij, by rw [Canvas.plotBits_px, hold, Bool.xor_false]; exact e⟩
    next hb =>
      rw [ih]
      have hf := Bool.eq_false_iff.2 hb
      simp [rowBit_succ, hf]

/-- Whether a sprite with these rows, first pixel at row `r`, column `c`, has a set bit at `(i, j)` (R193). -/
def spriteBit (r c : Nat) (rows : List Byte) (i j : Nat) : Bool :=
  decide (r ≤ i ∧ c ≤ j ∧ j < c + 8) && (rows.getD (i - r) 0).getLsbD (7 - (j - c))

theorem spriteBit_nil (r c i j : Nat) : spriteBit r c [] i j = false := by simp [spriteBit]

theorem spriteBit_cons (r c : Nat) (b : Byte) (bs : List Byte) (i j : Nat) :
    spriteBit r c (b :: bs) i j = (rowBit r c b 8 i j || spriteBit (r + 1) c bs i j) := by
  unfold spriteBit rowBit
  by_cases hi : i = r
  · subst hi
    simp
  · by_cases hr : r ≤ i
    · have h1 : r + 1 ≤ i := by omega
      have h2 : i - r = (i - (r + 1)) + 1 := by omega
      simp [hi, hr, h1, h2]
    · have h1 : ¬ r + 1 ≤ i := by omega
      simp [hi, hr, h1]

theorem rowBit_not_below (r c : Nat) (b : Byte) (bs : List Byte) (i j : Nat) (h : rowBit r c b 8 i j = true) :
    spriteBit (r + 1) c bs i j = false := by
  simp [rowBit] at h
  simp [spriteBit]
  omega

/-- What drawing does to the pixels: exactly those under a set, unclipped sprite bit are toggled (R192 to R194). -/
theorem Canvas.plotRows_px (d : Canvas) (r c : Nat) (rows : List Byte) (i : Fin 32) (j : Fin 64) :
    (d.plotRows r c rows).fb[i][j] = (d.fb[i][j] ^^ spriteBit r c rows i j) := by
  induction rows generalizing d r with
  | nil => simp [Canvas.plotRows, spriteBit_nil]
  | cons b bs ih =>
    rw [Canvas.plotRows, ih, Canvas.plotBits_px, spriteBit_cons]
    cases h : rowBit r c b Config.spriteWidth i j
    · simp
    · simp [rowBit_not_below r c b bs i j h]

/-- When drawing collides: some set, unclipped sprite bit lands on a pixel that was on (R195). -/
theorem Canvas.plotRows_collision (d : Canvas) (r c : Nat) (rows : List Byte) :
    (d.plotRows r c rows).collision = true ↔
      d.collision = true ∨ ∃ (i : Fin 32) (j : Fin 64), spriteBit r c rows i j = true ∧ d.fb[i][j] = true := by
  induction rows generalizing d r with
  | nil => simp [Canvas.plotRows, spriteBit_nil]
  | cons b bs ih =>
    rw [Canvas.plotRows, ih, Canvas.plotBits_collision, or_assoc]
    refine or_congr_right ⟨?_, ?_⟩
    · rintro (⟨i, j, hbit, e⟩ | ⟨i, j, hbit, e⟩)
      · have h' : rowBit r c b 8 i j = true := hbit
        exact ⟨i, j, by rw [spriteBit_cons, h']; rfl, e⟩
      · rw [Canvas.plotBits_px] at e
        have hrow : rowBit r c b Config.spriteWidth i j = false := by
          cases h : rowBit r c b Config.spriteWidth i j
          · rfl
          · rw [rowBit_not_below r c b bs i j h] at hbit
            exact absurd hbit (by simp)
        rw [hrow, Bool.xor_false] at e
        exact ⟨i, j, by rw [spriteBit_cons, hbit, Bool.or_true], e⟩
    · rintro ⟨i, j, hbit, e⟩
      rw [spriteBit_cons, Bool.or_eq_true] at hbit
      by_cases hrow : rowBit r c b 8 i j = true
      · exact Or.inl ⟨i, j, hrow, e⟩
      · have hrow' : rowBit r c b Config.spriteWidth i j = false := Bool.eq_false_iff.2 hrow
        refine Or.inr ⟨i, j, hbit.resolve_left hrow, ?_⟩
        rw [Canvas.plotBits_px, hrow', Bool.xor_false]
        exact e

/-! ## Outcomes -/

@[simp] theorem mapNext_next (f : State → State) (s : State) : mapNext f (.next s) = .next (f s) := rfl
@[simp] theorem mapNext_fault (f : State → State) (r : Fault) : mapNext f (.fault r) = .fault r := rfl
@[simp] theorem mapNext_refused (f : State → State) (r : Refusal) : mapNext f (.refused r) = .refused r := rfl

end Sys2Proof.Machine
end

