-- ==== Sys2Proof/Laws/Cycle.lean ====
section
/-!
SUPPORT. What a fetch, a dispatch, a cycle and a cycle of the host can do, said once: later proofs cite these and unfold
none of them.
-/
namespace Sys2Proof.Machine

/-- When a fetch succeeds, and with which word (R109). -/
theorem fetch_eq_ok {s : State} {w : Word} :
    fetch s = .ok w ↔
      s.pc.toNat ≤ 0xFFE ∧ w = wordOfBytes (s.mem.byte s.pc.toNat) (s.mem.byte (s.pc.toNat + 1)) := by
  unfold fetch
  split
  · next h => simp only [Except.ok.injEq]; simp only [Config.maxAddr] at h; constructor <;> rintro h' <;>
      first | exact ⟨by omega, h'.symm⟩ | exact h'.2.symm
  · next h => simp only [Config.maxAddr] at h; simp; omega

/-- When a fetch faults, and with which record (R222, R225). -/
theorem fetch_eq_error {s : State} {f : Fault} :
    fetch s = .error f ↔ 0xFFF ≤ s.pc.toNat ∧ f = .fetchOutOfBounds ⟨s.pc, none, max s.pc.toNat 0x1000⟩ := by
  unfold fetch
  split
  · next h => simp only [Config.maxAddr] at h; simp; omega
  · next h =>
    simp only [Except.error.injEq, lowestInvalid, Config.memSize]
    simp only [Config.maxAddr] at h
    constructor <;> rintro h' <;> first | exact ⟨by omega, h'.symm⟩ | exact h'.2.symm

/-- The dispatch of a word that decodes is the handler (R112). -/
theorem dispatch_of_ok {w : Word} {i : Instr} (h : decode w = .ok i) (s : State) : dispatch w s = exec i s := by
  simp only [dispatch, h]

/-- The dispatch of an unrecognised word is a diagnostic (R88). -/
theorem dispatch_of_error {w : Word} {e : DecodeError} (h : decode w = .error e) (s : State) :
    dispatch w s = .next s.report := by
  simp only [dispatch, h]

/-- A cycle after a successful fetch (R108). -/
theorem cycle_of_fetch {s : State} {w : Word} (h : fetch s = .ok w) (tick : Bool) (rnd : Byte) :
    cycle tick rnd s = mapNext (endCycle tick) (dispatch w (enter w rnd s)) := by
  simp only [cycle, h]

/-- A change of the next state answers a next state exactly when there is one to change. -/
theorem mapNext_eq_next {g : State → State} {r : Result} {t : State} :
    mapNext g r = .next t ↔ ∃ u, r = .next u ∧ t = g u := by
  cases r <;> simp [eq_comm]

/-- A change of the next state leaves faults alone. -/
theorem mapNext_eq_fault {g : State → State} {r : Result} {f : Fault} : mapNext g r = .fault f ↔ r = .fault f := by
  cases r <;> simp

/-- Everything a completed cycle can be (R108): an instruction's handler, or an unrecognised word's diagnostic, on the
entered state, and after it the end of the cycle. -/
theorem cycle_eq_next {tick : Bool} {rnd : Byte} {s t : State} :
    cycle tick rnd s = .next t ↔ ∃ w, fetch s = .ok w ∧
      ((∃ i u, decode w = .ok i ∧ exec i (enter w rnd s) = .next u ∧ t = endCycle tick u) ∨
        ((∃ e, decode w = .error e) ∧ t = endCycle tick (enter w rnd s).report)) := by
  cases hf : fetch s with
  | error f => simp [cycle, hf]
  | ok w =>
    rw [cycle_of_fetch hf, mapNext_eq_next]
    cases hd : decode w with
    | ok i => simp [dispatch_of_ok hd, hd]
    | error e => simp [dispatch_of_error hd, hd]

/-- Everything a faulting cycle can be (R221): a faulting fetch, or an instruction's handler that raises. -/
theorem cycle_eq_fault {tick : Bool} {rnd : Byte} {s : State} {f : Fault} :
    cycle tick rnd s = .fault f ↔ fetch s = .error f ∨
      ∃ w i, fetch s = .ok w ∧ decode w = .ok i ∧ exec i (enter w rnd s) = .fault f := by
  cases hf : fetch s with
  | error g => simp [cycle, hf]
  | ok w =>
    rw [cycle_of_fetch hf, mapNext_eq_fault]
    cases hd : decode w with
    | ok i => simp [dispatch_of_ok hd, hd]
    | error e => simp [dispatch_of_error hd, hd]

/-- The host's view of a completed cycle (R114). -/
theorem perform_cycle_of_next {tick : Bool} {rnd : Byte} {s t : State} (h : cycle tick rnd s = .next t) :
    perform tick (.cycle rnd) s = (t, .cycleOk (newDiagnostic s t)) := by
  simp only [perform, h]

/-- The host's view of a faulting cycle: the state stays (R224). -/
theorem perform_cycle_of_fault {tick : Bool} {rnd : Byte} {s : State} {f : Fault} (h : cycle tick rnd s = .fault f) :
    perform tick (.cycle rnd) s = (s, .cycleFault f) := by
  simp only [perform, h]

/-- No diagnostic where the side channel carries nothing new. -/
theorem newDiagnostic_of_eq {s t : State} (h : t.diags = s.diags) : newDiagnostic s t = none := by
  simp [newDiagnostic, h]

/-- The one new record is the diagnostic. -/
theorem newDiagnostic_of_cons {s t : State} {d : Diagnostic} (h : t.diags = d :: s.diags) :
    newDiagnostic s t = some d := by
  simp [newDiagnostic, h]

end Sys2Proof.Machine
end

