-- ==== Sys2Proof/Laws/Decode.lean ====
section
/-!
SUPPORT. The fields of a word of each format (spec/30_encoding.md R81), and byte order (R51).
-/
namespace Sys2Proof

theorem regOfBits_regBits (r : Reg) : regOfBits (regBits r) = r := rfl

theorem regBits_regOfBits (b : BitVec 4) : regBits (regOfBits b) = b := rfl

/-- A number smaller than `2 ^ n` in the low part does not reach the high part. -/
theorem append_toNat {m n : Nat} (a : BitVec m) (b : BitVec n) : (a ++ b).toNat = a.toNat * 2 ^ n + b.toNat := by
  rw [BitVec.toNat_append, Nat.shiftLeft_eq, Nat.mul_comm, Nat.two_pow_add_eq_or_of_lt b.isLt, Nat.mul_comm]

/-! ## Format XKK -/

theorem toNat_formatXKK (f : BitVec 4) (x : Reg) (kk : Byte) :
    (formatXKK f x kk).toNat = f.toNat * 4096 + x.val * 256 + kk.toNat := by
  have h : (regBits x).toNat = x.val := rfl
  unfold formatXKK
  rw [append_toNat, append_toNat, h]
  omega

theorem family_formatXKK (f : BitVec 4) (x : Reg) (kk : Byte) : family (formatXKK f x kk) = f := by
  apply BitVec.eq_of_toNat_eq
  have h := toNat_formatXKK f x kk
  have := f.isLt; have := kk.isLt; have := x.isLt
  simp only [family, BitVec.extractLsb'_toNat, h, Nat.shiftRight_eq_div_pow]
  omega

theorem fieldX_formatXKK (f : BitVec 4) (x : Reg) (kk : Byte) : fieldX (formatXKK f x kk) = x := by
  apply Fin.ext
  have h := toNat_formatXKK f x kk
  have := f.isLt; have := kk.isLt; have := x.isLt
  show ((formatXKK f x kk).extractLsb' 8 4).toNat = x.val
  simp only [BitVec.extractLsb'_toNat, h, Nat.shiftRight_eq_div_pow]
  omega

theorem fieldKK_formatXKK (f : BitVec 4) (x : Reg) (kk : Byte) : fieldKK (formatXKK f x kk) = kk := by
  apply BitVec.eq_of_toNat_eq
  have h := toNat_formatXKK f x kk
  have := f.isLt; have := kk.isLt; have := x.isLt
  simp only [fieldKK, BitVec.extractLsb'_toNat, h, Nat.shiftRight_eq_div_pow]
  omega

/-! ## Format NNN -/

theorem toNat_formatNNN (f : BitVec 4) (nnn : Imm12) : (formatNNN f nnn).toNat = f.toNat * 4096 + nnn.toNat := by
  unfold formatNNN
  rw [append_toNat]
  omega

theorem family_formatNNN (f : BitVec 4) (nnn : Imm12) : family (formatNNN f nnn) = f := by
  apply BitVec.eq_of_toNat_eq
  have h := toNat_formatNNN f nnn
  have := f.isLt; have := nnn.isLt
  simp only [family, BitVec.extractLsb'_toNat, h, Nat.shiftRight_eq_div_pow]
  omega

theorem fieldNNN_formatNNN (f : BitVec 4) (nnn : Imm12) : fieldNNN (formatNNN f nnn) = nnn := by
  apply BitVec.eq_of_toNat_eq
  have h := toNat_formatNNN f nnn
  have := f.isLt; have := nnn.isLt
  simp only [fieldNNN, BitVec.extractLsb'_toNat, h, Nat.shiftRight_eq_div_pow]
  omega

/-! ## Formats XY and XYN -/

theorem toNat_formatXY (f : BitVec 4) (x y : Reg) (n : BitVec 4) :
    (formatXY f x y n).toNat = f.toNat * 4096 + x.val * 256 + y.val * 16 + n.toNat := by
  have hx : (regBits x).toNat = x.val := rfl
  have hy : (regBits y).toNat = y.val := rfl
  unfold formatXY
  rw [append_toNat, append_toNat, append_toNat, hx, hy]
  omega

theorem family_formatXY (f : BitVec 4) (x y : Reg) (n : BitVec 4) : family (formatXY f x y n) = f := by
  apply BitVec.eq_of_toNat_eq
  have h := toNat_formatXY f x y n
  have := f.isLt; have := n.isLt; have := x.isLt; have := y.isLt
  simp only [family, BitVec.extractLsb'_toNat, h, Nat.shiftRight_eq_div_pow]
  omega

theorem fieldX_formatXY (f : BitVec 4) (x y : Reg) (n : BitVec 4) : fieldX (formatXY f x y n) = x := by
  apply Fin.ext
  have h := toNat_formatXY f x y n
  have := f.isLt; have := n.isLt; have := x.isLt; have := y.isLt
  show ((formatXY f x y n).extractLsb' 8 4).toNat = x.val
  simp only [BitVec.extractLsb'_toNat, h, Nat.shiftRight_eq_div_pow]
  omega

theorem fieldY_formatXY (f : BitVec 4) (x y : Reg) (n : BitVec 4) : fieldY (formatXY f x y n) = y := by
  apply Fin.ext
  have h := toNat_formatXY f x y n
  have := f.isLt; have := n.isLt; have := x.isLt; have := y.isLt
  show ((formatXY f x y n).extractLsb' 4 4).toNat = y.val
  simp only [BitVec.extractLsb'_toNat, h, Nat.shiftRight_eq_div_pow]
  omega

theorem nibble4_formatXY (f : BitVec 4) (x y : Reg) (n : BitVec 4) : nibble4 (formatXY f x y n) = n := by
  apply BitVec.eq_of_toNat_eq
  have h := toNat_formatXY f x y n
  have := f.isLt; have := n.isLt; have := x.isLt; have := y.isLt
  simp only [nibble4, BitVec.extractLsb'_toNat, h, Nat.shiftRight_eq_div_pow]
  omega

/-! ## What a mask leaves of a word (R86) -/

theorem formatXKK_and (f m : BitVec 4) (x : Reg) (kk mk : Byte) :
    formatXKK f x kk &&& formatXKK m 0 mk = formatXKK (f &&& m) 0 (kk &&& mk) := by
  unfold formatXKK
  rw [BitVec.and_append, BitVec.and_append]
  have h : regBits x &&& regBits 0 = regBits 0 := by revert x; decide
  rw [h]

theorem formatNNN_and (f m : BitVec 4) (nnn : Imm12) :
    formatNNN f nnn &&& formatNNN m 0 = formatNNN (f &&& m) 0 := by
  unfold formatNNN
  rw [BitVec.and_append]
  simp

theorem formatXY_and (f m : BitVec 4) (x y : Reg) (n mn : BitVec 4) :
    formatXY f x y n &&& formatXY m 0 0 mn = formatXY (f &&& m) 0 0 (n &&& mn) := by
  unfold formatXY
  rw [BitVec.and_append, BitVec.and_append, BitVec.and_append]
  have h : ∀ r : Reg, regBits r &&& regBits 0 = regBits 0 := by decide
  rw [h, h]

/-! ## Byte order (R51) -/

theorem wordOfBytes_bytes (w : Word) : wordOfBytes (highByte w) (lowByte w) = w := by
  apply BitVec.eq_of_toNat_eq
  have := w.isLt
  unfold wordOfBytes
  rw [append_toNat]
  simp only [highByte, lowByte, BitVec.extractLsb'_toNat, Nat.shiftRight_eq_div_pow]
  omega

theorem highByte_wordOfBytes (hi lo : Byte) : highByte (wordOfBytes hi lo) = hi := by
  apply BitVec.eq_of_toNat_eq
  have := hi.isLt; have := lo.isLt
  unfold highByte wordOfBytes
  rw [BitVec.extractLsb'_toNat, append_toNat, Nat.shiftRight_eq_div_pow]
  omega

theorem lowByte_wordOfBytes (hi lo : Byte) : lowByte (wordOfBytes hi lo) = lo := by
  apply BitVec.eq_of_toNat_eq
  have := hi.isLt; have := lo.isLt
  unfold lowByte wordOfBytes
  rw [BitVec.extractLsb'_toNat, append_toNat, Nat.shiftRight_eq_div_pow]
  omega

end Sys2Proof
end

