-- ==== Sys2Proof/Laws/PerInstr.lean ====
section
/-!
SUPPORT. Statements about every instruction as syntax, one lemma per constructor: the word an instruction is encoded to
matches its row of the opcode table (spec/30_encoding.md R86).
-/
namespace Sys2Proof.Laws.TableRow

/-- The encoded word matches the table's row of the instruction. -/
def Statement (i : Instr) : Prop :=
  ∃ r, opcodeTable[i.rowIndex]? = some r ∧ r.matches (encode i) = true

theorem of_eq {i : Instr} (r : OpcodeRow) (hr : opcodeTable[i.rowIndex]? = some r)
    (h : encode i &&& r.mask = r.pattern) : Statement i :=
  ⟨r, hr, decide_eq_true h⟩

theorem cls : Statement .cls := of_eq _ rfl (by decide)

theorem ret : Statement .ret := of_eq _ rfl (by decide)

theorem jp (nnn : Imm12) : Statement (.jp nnn) :=
  of_eq _ rfl ((formatNNN_and _ 0xF#4 _).trans (by decide))

theorem call (nnn : Imm12) : Statement (.call nnn) :=
  of_eq _ rfl ((formatNNN_and _ 0xF#4 _).trans (by decide))

theorem seByte (x : Reg) (kk : Byte) : Statement (.seByte x kk) :=
  of_eq _ rfl ((formatXKK_and _ 0xF#4 _ _ 0x00#8).trans (by rw [BitVec.and_zero]; decide))

theorem sneByte (x : Reg) (kk : Byte) : Statement (.sneByte x kk) :=
  of_eq _ rfl ((formatXKK_and _ 0xF#4 _ _ 0x00#8).trans (by rw [BitVec.and_zero]; decide))

theorem seReg (x y : Reg) : Statement (.seReg x y) :=
  of_eq _ rfl ((formatXY_and _ 0xF#4 _ _ _ 0xF#4).trans (by decide))

theorem sneReg (x y : Reg) : Statement (.sneReg x y) :=
  of_eq _ rfl ((formatXY_and _ 0xF#4 _ _ _ 0xF#4).trans (by decide))

theorem ldByte (x : Reg) (kk : Byte) : Statement (.ldByte x kk) :=
  of_eq _ rfl ((formatXKK_and _ 0xF#4 _ _ 0x00#8).trans (by rw [BitVec.and_zero]; decide))

theorem addByte (x : Reg) (kk : Byte) : Statement (.addByte x kk) :=
  of_eq _ rfl ((formatXKK_and _ 0xF#4 _ _ 0x00#8).trans (by rw [BitVec.and_zero]; decide))

theorem ldReg (x y : Reg) : Statement (.ldReg x y) :=
  of_eq _ rfl ((formatXY_and _ 0xF#4 _ _ _ 0xF#4).trans (by decide))

theorem orReg (x y : Reg) : Statement (.orReg x y) :=
  of_eq _ rfl ((formatXY_and _ 0xF#4 _ _ _ 0xF#4).trans (by decide))

theorem andReg (x y : Reg) : Statement (.andReg x y) :=
  of_eq _ rfl ((formatXY_and _ 0xF#4 _ _ _ 0xF#4).trans (by decide))

theorem xorReg (x y : Reg) : Statement (.xorReg x y) :=
  of_eq _ rfl ((formatXY_and _ 0xF#4 _ _ _ 0xF#4).trans (by decide))

theorem addReg (x y : Reg) : Statement (.addReg x y) :=
  of_eq _ rfl ((formatXY_and _ 0xF#4 _ _ _ 0xF#4).trans (by decide))

theorem subReg (x y : Reg) : Statement (.subReg x y) :=
  of_eq _ rfl ((formatXY_and _ 0xF#4 _ _ _ 0xF#4).trans (by decide))

theorem shr (x y : Reg) : Statement (.shr x y) :=
  of_eq _ rfl ((formatXY_and _ 0xF#4 _ _ _ 0xF#4).trans (by decide))

theorem subnReg (x y : Reg) : Statement (.subnReg x y) :=
  of_eq _ rfl ((formatXY_and _ 0xF#4 _ _ _ 0xF#4).trans (by decide))

theorem shl (x y : Reg) : Statement (.shl x y) :=
  of_eq _ rfl ((formatXY_and _ 0xF#4 _ _ _ 0xF#4).trans (by decide))

theorem ldI (nnn : Imm12) : Statement (.ldI nnn) :=
  of_eq _ rfl ((formatNNN_and _ 0xF#4 _).trans (by decide))

theorem jpV0 (nnn : Imm12) : Statement (.jpV0 nnn) :=
  of_eq _ rfl ((formatNNN_and _ 0xF#4 _).trans (by decide))

theorem rnd (x : Reg) (kk : Byte) : Statement (.rnd x kk) :=
  of_eq _ rfl ((formatXKK_and _ 0xF#4 _ _ 0x00#8).trans (by rw [BitVec.and_zero]; decide))

theorem drw (x y : Reg) (n : Nat) : Statement (.drw x y n) :=
  of_eq _ rfl ((formatXY_and _ 0xF#4 _ _ _ 0x0#4).trans (by rw [BitVec.and_zero]; decide))

theorem skp (x : Reg) : Statement (.skp x) :=
  of_eq _ rfl ((formatXKK_and _ 0xF#4 _ _ 0xFF#8).trans (by decide))

theorem sknp (x : Reg) : Statement (.sknp x) :=
  of_eq _ rfl ((formatXKK_and _ 0xF#4 _ _ 0xFF#8).trans (by decide))

theorem ldVxDT (x : Reg) : Statement (.ldVxDT x) :=
  of_eq _ rfl ((formatXKK_and _ 0xF#4 _ _ 0xFF#8).trans (by decide))

theorem ldVxK (x : Reg) : Statement (.ldVxK x) :=
  of_eq _ rfl ((formatXKK_and _ 0xF#4 _ _ 0xFF#8).trans (by decide))

theorem ldDTVx (x : Reg) : Statement (.ldDTVx x) :=
  of_eq _ rfl ((formatXKK_and _ 0xF#4 _ _ 0xFF#8).trans (by decide))

theorem ldSTVx (x : Reg) : Statement (.ldSTVx x) :=
  of_eq _ rfl ((formatXKK_and _ 0xF#4 _ _ 0xFF#8).trans (by decide))

theorem addI (x : Reg) : Statement (.addI x) :=
  of_eq _ rfl ((formatXKK_and _ 0xF#4 _ _ 0xFF#8).trans (by decide))

theorem ldF (x : Reg) : Statement (.ldF x) :=
  of_eq _ rfl ((formatXKK_and _ 0xF#4 _ _ 0xFF#8).trans (by decide))

theorem ldB (x : Reg) : Statement (.ldB x) :=
  of_eq _ rfl ((formatXKK_and _ 0xF#4 _ _ 0xFF#8).trans (by decide))

theorem store (x : Reg) : Statement (.store x) :=
  of_eq _ rfl ((formatXKK_and _ 0xF#4 _ _ 0xFF#8).trans (by decide))

theorem load (x : Reg) : Statement (.load x) :=
  of_eq _ rfl ((formatXKK_and _ 0xF#4 _ _ 0xFF#8).trans (by decide))

end Sys2Proof.Laws.TableRow
end

