-- ==== Sys2Proof/Tests/Slice0.lean ====
section
/-!
SUPPORT. Checks of the model against the worked vectors of spec/95_test_vectors.md (V1, T5, ...), words written out from
the encodings of spec/30_encoding.md R86, ill-formed terms, and, for each obligation with hypotheses, states and operands
that meet them. Each behaviour test is one cycle without tick and with random byte 0 unless it says otherwise.
-/
namespace Sys2Proof.Tests
open Machine

/-! ## Helpers -/

/-- The next state of an outcome. -/
def next? : Result → Option State
  | .next t => some t
  | .fault _ | .refused _ => none

/-- The fault of an outcome, as the code and the record of R225. -/
def fault? : Result → Option (Nat × FaultInfo)
  | .fault f => some (f.code, f.info)
  | .next _ | .refused _ => none

/-- One cycle on `s` with the word `w` at `pc`. -/
def cycleOf (w : Nat) (s : State) (tick : Bool := false) (rnd : Byte := 0) : Result :=
  cycle tick rnd (s.withFetchWord 16 w)

/-- After one cycle, what `f` shows. -/
def after {α : Type} (w : Nat) (s : State) (f : State → α) : Option α := (next? (cycleOf w s)).map f

/-- After one cycle that ticks. -/
def afterTick {α : Type} (w : Nat) (s : State) (f : State → α) : Option α := (next? (cycleOf w s true)).map f

/-- The reset state. -/
abbrev s0 : State := State.reset

/-- The reset state with `V1` and `V2`. -/
def v12 (a b : Byte) : State := (s0.setV 1 a).setV 2 b

/-- The reset state with `V1`, `V2`, `VF`. -/
def v12f (a b f : Byte) : State := (v12 a b).setV 15 f

/-- A state with `pc`. -/
def at_ (pc : Word) (s : State) : State := { s with pc := pc }

/-- A state with `I` and bytes at an address. -/
def withData (i : Word) (a : Nat) (bs : List Byte) (s : State) : State :=
  { s with I := i, mem := s.mem.putBytes a bs }

/-- Registers with `V[i] = 0x10 + i`. -/
def counting : State := { s0 with V := Vector.ofFn (fun i => BitVec.ofNat 8 (0x10 + i.val)) }

/-- A keypad from a mask, key `i` at bit `i`. -/
def keys (m : BitVec 16) : Vector Bool 16 := Vector.ofFn (fun k => m.getLsbD k.val)

/-- The frame buffer with two more pixels on, in row 0. -/
def twoPixels (c d : Fin 64) : FrameBuffer :=
  FrameBuffer.blank.set 0 ((FrameBuffer.blank[0].set c.val true c.isLt).set d.val true d.isLt)

/-- The first ten pixels of row `r`. -/
def row10 (t : State) (r : Fin 32) : List Bool := t.fb[r].toList.take 10

/-- What the bytes of an instruction decode to, one word on its own. -/
def decoded (w : Nat) : Option Instr := decodeTableWord 16 w

/-! ## Ill-formed terms -/

theorem test_wf_refuses_row_count_16 : (Instr.drw 0 0 16).WellFormed = false := by decide
theorem test_wf_accepts_row_count_15 : (Instr.drw 15 15 15).WellFormed = true := by decide

/-! ## Decoding: words written out nibble by nibble from R86 -/

theorem test_decode_cls : decoded 0x00E0 = some (.cls) := by decide
theorem test_decode_ret : decoded 0x00EE = some (.ret) := by decide
theorem test_decode_jp : decoded 0x1ABC = some (.jp 0xABC) := by decide
theorem test_decode_call : decoded 0x2FFE = some (.call 0xFFE) := by decide
theorem test_decode_seByte : decoded 0x3A42 = some (.seByte 10 0x42) := by decide
theorem test_decode_sneByte : decoded 0x4B01 = some (.sneByte 11 0x01) := by decide
theorem test_decode_seReg : decoded 0x5120 = some (.seReg 1 2) := by decide
theorem test_decode_sneReg : decoded 0x9E30 = some (.sneReg 14 3) := by decide
theorem test_decode_ldByte : decoded 0x6F37 = some (.ldByte 15 0x37) := by decide
theorem test_decode_addByte : decoded 0x7A02 = some (.addByte 10 0x02) := by decide
theorem test_decode_ldReg : decoded 0x8120 = some (.ldReg 1 2) := by decide
theorem test_decode_orReg : decoded 0x8341 = some (.orReg 3 4) := by decide
theorem test_decode_andReg : decoded 0x8562 = some (.andReg 5 6) := by decide
theorem test_decode_xorReg : decoded 0x8783 = some (.xorReg 7 8) := by decide
theorem test_decode_addReg : decoded 0x89A4 = some (.addReg 9 10) := by decide
theorem test_decode_subReg : decoded 0x8BC5 = some (.subReg 11 12) := by decide
theorem test_decode_shr : decoded 0x8DE6 = some (.shr 13 14) := by decide
theorem test_decode_subnReg : decoded 0x8F07 = some (.subnReg 15 0) := by decide
theorem test_decode_shl : decoded 0x812E = some (.shl 1 2) := by decide
theorem test_decode_ldI : decoded 0xA300 = some (.ldI 0x300) := by decide
theorem test_decode_jpV0 : decoded 0xBFFF = some (.jpV0 0xFFF) := by decide
theorem test_decode_rnd : decoded 0xC30F = some (.rnd 3 0x0F) := by decide
theorem test_decode_drw : decoded 0xD12F = some (.drw 1 2 15) := by decide
theorem test_decode_skp : decoded 0xE19E = some (.skp 1) := by decide
theorem test_decode_sknp : decoded 0xE2A1 = some (.sknp 2) := by decide
theorem test_decode_ldVxDT : decoded 0xF307 = some (.ldVxDT 3) := by decide
theorem test_decode_ldVxK : decoded 0xF50A = some (.ldVxK 5) := by decide
theorem test_decode_ldDTVx : decoded 0xF215 = some (.ldDTVx 2) := by decide
theorem test_decode_ldSTVx : decoded 0xF218 = some (.ldSTVx 2) := by decide
theorem test_decode_addI : decoded 0xF11E = some (.addI 1) := by decide
theorem test_decode_ldF : decoded 0xFA29 = some (.ldF 10) := by decide
theorem test_decode_ldB : decoded 0xFC33 = some (.ldB 12) := by decide
theorem test_decode_store : decoded 0xF355 = some (.store 3) := by decide
theorem test_decode_load : decoded 0xFF65 = some (.load 15) := by decide

/-- V170 to V176: words that match no row. -/
theorem test_decode_unrecognised :
    [0x0000, 0x00E1, 0x00FE, 0x0123, 0x5121, 0x9AB7, 0x8128, 0x812F, 0xE19F, 0xE000, 0xF1FF, 0xF000, 0xF175,
      0xF185].all (fun w => decoded w == none) = true := by decide

/-- One byte is no instruction (R80). -/
theorem test_decode_truncated : decodeBytes [0x60] = .error .truncated := by decide

/-! ## The cycle -/

/-- V26: the last word of memory. -/
theorem test_fetch_last_word : after 0x6A11 (at_ 0xFFE s0) (fun t => (t.V[10], t.pc)) = some (0x11, 0x1000) := by
  decide

/-- V25: an odd address, high byte first. -/
theorem test_fetch_odd : after 0x6A11 (at_ 0x201 s0) (fun t => (t.V[10], t.pc)) = some (0x11, 0x203) := by decide

/-- V27: half a word past the end. -/
theorem test_fetch_fault : fault? (cycle false 0 (at_ 0xFFF s0)) = some (1, ⟨0xFFF, none, 0x1000⟩) := by decide

/-- V21, second cycle: both bytes past the end. -/
theorem test_fetch_fault_above : fault? (cycle false 0 (at_ 0x1002 s0)) = some (1, ⟨0x1002, none, 0x1002⟩) := by
  decide

/-- V177: an unrecognised word, with tick. -/
theorem test_unrecognised_ticks :
    afterTick 0x5121 { s0 with DT := 3 } (fun t => (t.pc, t.DT, t.diags)) = some (0x202, 2, [⟨0x5121, 0x200⟩]) := by
  decide

/-- V170: what empty memory holds. -/
theorem test_unrecognised_zero :
    (next? (cycle false 0 s0)).map (fun t => (t.pc, t.diags)) = some (0x202, [⟨0x0000, 0x200⟩]) := by decide

/-! ## Control flow (T20) -/

/-- V7. -/
theorem test_ret :
    after 0x00EE { s0 with sp := 2, stack := (s0.stack.set 0 0x222).set 1 0x345 }
      (fun t => (t.pc, t.sp, t.stack[1])) = some (0x345, 1, 0x345) := by decide

/-- V8. -/
theorem test_ret_underflow :
    fault? (cycleOf 0x00EE s0) = some (4, ⟨0x200, some 0x00EE, 0⟩) := by decide

/-- V1. -/
theorem test_jp :
    after 0x1ABC s0 (fun t => t.pc) = some 0xABC := by decide

/-- V2. -/
theorem test_jp_self :
    after 0x1200 s0 (fun t => (t.pc, t.sp, t.I)) = some (0x200, 0, 0) := by decide

/-- V5: the return address is 0x1000. -/
theorem test_call :
    after 0x2FFE (at_ 0xFFE s0) (fun t => (t.stack[0], t.sp, t.pc)) = some (0x1000, 1, 0xFFE) := by decide

/-- V6. -/
theorem test_call_overflow :
    fault? (cycleOf 0x2200 { s0 with sp := 16 }) = some (3, ⟨0x200, some 0x2200, 0⟩) := by decide

/-- V10. -/
theorem test_seByte :
    after 0x3A42 (s0.setV 10 0x42) (fun t => t.pc) = some 0x204 := by decide

/-- V11. -/
theorem test_seByte_not :
    after 0x3A42 (s0.setV 10 0x43) (fun t => t.pc) = some 0x202 := by decide

/-- V13. -/
theorem test_sneByte :
    after 0x4A42 (s0.setV 10 0x43) (fun t => t.pc) = some 0x204 := by decide

/-- V12. -/
theorem test_sneByte_not :
    after 0x4A42 (s0.setV 10 0x42) (fun t => t.pc) = some 0x202 := by decide

/-- V14. -/
theorem test_seReg :
    after 0x5120 (v12 7 7) (fun t => t.pc) = some 0x204 := by decide

/-- V15. -/
theorem test_seReg_not :
    after 0x5120 (v12 7 8) (fun t => t.pc) = some 0x202 := by decide

/-- V18. -/
theorem test_sneReg :
    after 0x9120 (v12 7 8) (fun t => t.pc) = some 0x204 := by decide

/-- V19. -/
theorem test_sneReg_self :
    after 0x9330 (s0.setV 3 9) (fun t => t.pc) = some 0x202 := by decide

/-- V22. -/
theorem test_jpV0 :
    after 0xB300 (s0.setV 0 0x10) (fun t => t.pc) = some 0x310 := by decide

/-- V23: the sum is not cut to 12 bits. -/
theorem test_jpV0_top :
    after 0xBFFF (s0.setV 0 0xFF) (fun t => t.pc) = some 0x10FE := by decide

/-! ## Registers and arithmetic (T21) -/

/-- V31. -/
theorem test_ldByte :
    after 0x6F37 s0 (fun t => (t.V[15], t.pc)) = some (0x37, 0x202) := by decide

/-- V33: wraps, no carry. -/
theorem test_addByte :
    after 0x7A02 ((s0.setV 10 0xFF).setV 15 0x55) (fun t => (t.V[10], t.V[15])) = some (0x01, 0x55) := by decide

/-- V34. -/
theorem test_addByte_vf :
    after 0x7F01 (s0.setV 15 0xFF) (fun t => t.V[15]) = some 0x00 := by decide

/-- V35. -/
theorem test_ldReg :
    after 0x8120 (v12f 0x01 0xAB 9) (fun t => (t.V[1], t.V[15], t.pc)) = some (0xAB, 9, 0x202) := by decide

/-- V36. -/
theorem test_orReg :
    after 0x8121 (v12f 0xF0 0x3C 9) (fun t => (t.V[1], t.V[15], t.pc)) = some (0xFC, 9, 0x202) := by decide

/-- V37. -/
theorem test_andReg :
    after 0x8122 (v12f 0xF0 0x3C 9) (fun t => (t.V[1], t.V[15], t.pc)) = some (0x30, 9, 0x202) := by decide

/-- V38. -/
theorem test_xorReg :
    after 0x8123 (v12f 0xF0 0x3C 9) (fun t => (t.V[1], t.V[15], t.pc)) = some (0xCC, 9, 0x202) := by decide

/-- V42. -/
theorem test_addReg :
    after 0x8124 (v12 0xC8 0x64) (fun t => (t.V[1], t.V[15], t.pc)) = some (0x2C, 1, 0x202) := by decide

/-- V48: the flag wins. -/
theorem test_addReg_vf :
    after 0x8F14 ((s0.setV 15 0xF0).setV 1 0x20) (fun t => t.V[15]) = some 1 := by decide

/-- V50. -/
theorem test_subReg :
    after 0x8125 (v12 0x03 0x05) (fun t => (t.V[1], t.V[15], t.pc)) = some (0xFE, 0, 0x202) := by decide

/-- V51: equal is not greater. -/
theorem test_subReg_equal :
    after 0x8125 (v12f 7 7 9) (fun t => (t.V[1], t.V[15], t.pc)) = some (0, 0, 0x202) := by decide

/-- V58: `y` is not used. -/
theorem test_shr :
    after 0x8126 (v12 0x05 0xAA) (fun t => (t.V[1], t.V[15], t.pc)) = some (0x02, 1, 0x202) := by decide

/-- V63. -/
theorem test_shr_vf :
    after 0x8F16 (s0.setV 15 0xFF) (fun t => t.V[15]) = some 0 := by decide

/-- V68. -/
theorem test_subnReg :
    after 0x8127 (v12 0x00 0xFF) (fun t => (t.V[1], t.V[15], t.pc)) = some (0xFF, 1, 0x202) := by decide

/-- V69. -/
theorem test_subnReg_vf :
    after 0x8F17 ((s0.setV 15 3).setV 1 9) (fun t => t.V[15]) = some 1 := by decide

/-- V71. -/
theorem test_shl :
    after 0x812E (v12 0x81 0xAA) (fun t => (t.V[1], t.V[15], t.pc)) = some (0x02, 1, 0x202) := by decide

/-- V76. -/
theorem test_shl_vf :
    after 0x8F1E (s0.setV 15 0xFF) (fun t => t.V[15]) = some 2 := by decide

/-- V78. -/
theorem test_rnd :
    (next? (cycleOf 0xC30F s0 false 0xA7)).map (fun t => t.V[3]) = some 0x07 := by decide

/-! ## Index register and memory (T22) -/

/-- V90. -/
theorem test_ldI :
    after 0xAFFF s0 (fun t => (t.I, t.pc)) = some (0x0FFF, 0x202) := by decide

/-- V91: past 0xFFF without fault or flag. -/
theorem test_addI :
    after 0xF11E ({ s0 with I := 0x0FF0 }.setV 1 0x20) (fun t => (t.I, t.V[15])) = some (0x1010, 0) := by decide

/-- V92. -/
theorem test_addI_wraps :
    after 0xF11E ({ s0 with I := 0xFFFF }.setV 1 0x02) (fun t => t.I) = some 0x0001 := by decide

/-- V94. -/
theorem test_ldF :
    after 0xF129 (s0.setV 1 0x0F) (fun t => t.I) = some 0x009B := by decide

/-- V96. -/
theorem test_ldF_no_mask :
    after 0xF129 (s0.setV 1 0xFF) (fun t => t.I) = some 0x054B := by decide

/-- V101: the last place. -/
theorem test_ldB :
    after 0xF133 ({ s0 with I := 0xFFD }.setV 1 0xFF)
      (fun t => (t.mem.bytes 0xFFD 3, t.I)) = some ([2, 5, 5], 0xFFD) := by decide

/-- V102. -/
theorem test_ldB_fault :
    fault? (cycleOf 0xF133 ({ s0 with I := 0xFFE }.setV 1 0xFF)) = some (2, ⟨0x200, some 0xF133, 0x1000⟩) := by decide

/-- V104. -/
theorem test_store :
    after 0xF355 { counting with I := 0x400 }
      (fun t => (t.mem.bytes 0x3FF 6, t.I)) = some ([0, 0x10, 0x11, 0x12, 0x13, 0], 0x400) := by decide

/-- V107. -/
theorem test_store_fault :
    fault? (cycleOf 0xF155 { counting with I := 0xFFF }) = some (2, ⟨0x200, some 0xF155, 0x1000⟩) := by decide

/-- V108. -/
theorem test_load :
    after 0xF365 (withData 0x400 0x400 [0xDE, 0xAD, 0xBE, 0xEF, 0x99] (s0.setV 4 0x77))
      (fun t => (t.V.toList.take 5, t.I)) = some ([0xDE, 0xAD, 0xBE, 0xEF, 0x77], 0x400) := by decide

/-- V110. -/
theorem test_load_fault :
    fault? (cycleOf 0xFF65 { s0 with I := 0xFF1 }) = some (2, ⟨0x200, some 0xFF65, 0x1000⟩) := by decide

/-! ## Display (T23) -/

/-- V131. -/
theorem test_cls :
    after 0x00E0 ({ s0 with fb := twoPixels 2 5 }.setV 15 9)
      (fun t => (row10 t 0, t.V[15])) = some (List.replicate 10 false, 9) := by decide

/-- V126. -/
theorem test_drw_collision :
    after 0xD011 (withData 0x300 0x300 [0xF0] { s0 with fb := twoPixels 2 5 })
      (fun t => (row10 t 0, t.V[15])) =
      some ([true, true, false, true, false, true, false, false, false, false], 1) := by decide

/-- V120: bit 7 at column 60, nothing on the opposite edge, row 32 clipped. -/
theorem test_drw_clips :
    after 0xD122 (withData 0x300 0x300 [0x81, 0x3C] (v12 0x3C 0x1F))
      (fun t => (t.fb[31].toList.idxOf true, t.fb[31].toList.count true, row10 t 0, t.V[15])) =
      some (60, 1, List.replicate 10 false, 0) := by decide

/-! ## Keypad and timers (T24) -/

/-- V144. -/
theorem test_skp :
    after 0xE19E ({ s0 with key := keys 0x8000 }.setV 1 0x0F) (fun t => t.pc) = some 0x204 := by decide

/-- V145. -/
theorem test_skp_fault :
    fault? (cycleOf 0xE19E ({ s0 with key := keys 0xFFFF }.setV 1 0x10)) = some (5, ⟨0x200, some 0xE19E, 0x10⟩) := by decide

/-- V142. -/
theorem test_sknp :
    after 0xE1A1 (s0.setV 1 0x03) (fun t => t.pc) = some 0x204 := by decide

/-- V143. -/
theorem test_sknp_not :
    after 0xE1A1 ({ s0 with key := keys 0x0008 }.setV 1 0x03) (fun t => t.pc) = some 0x202 := by decide

/-- V153: read before the tick. -/
theorem test_ldVxDT :
    afterTick 0xF307 { s0 with DT := 0x2A } (fun t => (t.V[3], t.DT)) = some (0x2A, 0x29) := by decide

/-- V148: the lowest key. -/
theorem test_ldVxK :
    after 0xF50A ({ s0 with key := keys 0x0048 }.setV 5 0x77)
      (fun t => (t.V[5], t.pc)) = some (0x03, 0x202) := by decide

/-- V151: a blocked cycle ticks. -/
theorem test_ldVxK_blocked :
    afterTick 0xF50A { s0 with DT := 5, ST := 1 } (fun t => (t.pc, t.DT, t.ST)) = some (0x200, 4, 0) := by decide

/-- V155: set, then ticked. -/
theorem test_ldDTVx :
    afterTick 0xF215 (s0.setV 2 0x3C) (fun t => t.DT) = some 0x3B := by decide

/-- V159. -/
theorem test_ldSTVx :
    afterTick 0xF218 ({ s0 with DT := 1 }.setV 2 5) (fun t => (t.ST, t.DT)) = some (4, 0) := by decide

/-! ## Host operations (T26) -/

/-- T10: the image of program P1. -/
theorem test_load_image :
    ((perform false (.load [0x60, 0x05, 0x70, 0x03]) { s0 with pc := 0x300 }).1.mem.bytes 0x1FF 6) =
      [0, 0x60, 0x05, 0x70, 0x03, 0] := by decide

/-- V181. -/
theorem test_load_too_large :
    s0.loadImage? (List.replicate 3585 0xAA) = none :=
  if_pos (by rw [List.length_replicate]; decide)

/-- V184. -/
theorem test_reset_memory :
    ((s0.mem.byte 0x04F, s0.mem.byte 0x050, s0.mem.byte 0x09F, s0.mem.byte 0x0A0)) =
      ((0x00 : Byte), (0xF0 : Byte), (0x80 : Byte), (0x00 : Byte)) := by decide

/-- V160, the first tick. -/
theorem test_tick :
    (perform false .tick { s0 with DT := 2 }).1 = { s0 with DT := 1 } := by decide

/-! ## Witnesses: the hypotheses of each obligation can be met -/

/-- The reset state with a jump to itself at 0x200. -/
abbrev selfJump : State := s0.withFetchWord 16 0x1200

theorem witness_DecodeUndoesEncode :
    (Instr.drw 15 15 15).WellFormed = true := by decide

theorem witness_EncodeUndoesDecode :
    decode 0xD12F#16 = .ok (.drw 1 2 15) := by decide

theorem witness_DecodeFollowsTheTable_recognised :
    decode 0x8FFE#16 = .ok (.shl 15 15) ∧ opcodeTable[18]?.map (fun r => r.matches 0x8FFE#16) = some true := by decide

theorem witness_DecodeFollowsTheTable_unrecognised :
    decode 0x8FFF#16 = .error (.unrecognised 0x8FFF#16) ∧
      ∀ r ∈ opcodeTable, r.matches 0x8FFF#16 = false := by decide

theorem witness_TableRowsDisjoint :
    ⟨"RET", 0x00EE, 0xFFFF⟩ ∈ opcodeTable ∧ OpcodeRow.matches ⟨"RET", 0x00EE, 0xFFFF⟩ 0x00EE#16 = true := by decide

/-- The last address an instruction can be fetched from. -/
theorem witness_StepRunsDecodedInstruction :
    let s := (at_ 0xFFE s0).withFetchWord 16 0x6A11
    s.pc.toNat ≤ 0xFFE ∧ 0x6A11#16 = wordOfBytes (s.mem.byte s.pc.toNat) (s.mem.byte (s.pc.toNat + 1)) ∧
      decode 0x6A11#16 = .ok (.ldByte 10 0x11) := by decide

/-- Each clause at its boundary. -/
theorem witness_FetchBigEndianOrFault :
    (at_ 0xFFE s0).pc.toNat ≤ 0xFFE ∧ 0xFFF ≤ (at_ 0xFFF s0).pc.toNat ∧ 0xFFF ≤ (at_ 0xFFFF s0).pc.toNat := by decide

/-- A word of each family with unrecognised words, and a cycle that fetches one. -/
theorem witness_UnrecognisedWordIsReportedNoOp :
    [0x00E1#16, 0x512F#16, 0x9121#16, 0x812F#16, 0xE19F#16, 0xF166#16].all
      (fun w => decide (decode w = .error (.unrecognised w))) = true ∧
    fetch (s0.withFetchWord 16 0x512F) = .ok 0x512F#16 := by decide

/-- A completed cycle that ran an instruction. -/
theorem witness_UnrecognisedWordIsReportedNoOp_recognised :
    fetch (s0.withFetchWord 16 0x6A11) = .ok 0x6A11#16 ∧ decode 0x6A11#16 = .ok (.ldByte 10 0x11) ∧
      ∃ t, cycle true 0 (s0.withFetchWord 16 0x6A11) = .next t := 
  ⟨by decide, by decide, ⟨_, rfl⟩⟩

theorem witness_CycleTickFollowsHandler :
    ∃ u, cycle false 0xFF selfJump = .next u := ⟨_, rfl⟩

theorem witness_ResetGivesResetState :
    (0x4F < 0x50 ∨ 0xA0 ≤ 0x4F) ∧ (0xA0 < 0x50 ∨ 0xA0 ≤ 0xA0) ∧ 79 < Config.fontData.length := by decide

/-- The largest image that fits, one byte more, and the bytes at both ends. -/
theorem witness_LoadCopiesImageOrRefuses :
    0x200 + (List.replicate 3584 (0xAA : Byte)).length ≤ 4096 ∧
      3583 < (List.replicate 3584 (0xAA : Byte)).length ∧
      4096 < 0x200 + (List.replicate 3585 (0xAA : Byte)).length ∧ s0.mem.wf := by
  refine ⟨?_, ?_, ?_, by decide⟩ <;> rw [List.length_replicate] <;> decide

theorem witness_OnlyResetBeforeReset :
    HostOp.reset = .reset ∧ HostOp.cycle 0 ≠ .reset := by decide

theorem witness_RetPopsProgramCounter :
    0 < ({ s0 with sp := 1 } : State).sp.val ∧ s0.sp.val = 0 ∧ ({ s0 with sp := 15 } : State).sp.val < 16 := by decide

theorem witness_CallPushesAndJumps :
    ({ s0 with sp := 15 } : State).sp.val < 16 ∧ (3 : Fin 16).val ≠ ({ s0 with sp := 15 } : State).sp.val ∧
      ({ s0 with sp := 16 } : State).sp.val = 16 := by decide

theorem witness_AddRegSetsCarry :
    (14 : Reg) ≠ regVF ∧ (0 : Reg) ∉ [(14 : Reg), regVF] := by decide

theorem witness_SubtractsSetGreaterFlag :
    (0 : Reg) ≠ regVF ∧ (1 : Reg) ∉ [(0 : Reg), regVF] := by decide

theorem witness_ShiftsCaptureLostBit :
    (14 : Reg) ≠ regVF ∧ (15 : Reg) = regVF := by decide

theorem witness_LdBStoresDecimalDigits :
    ({ s0 with I := 0xFFD } : State).ea 2 ≤ 0xFFF ∧ 0xFFF < ({ s0 with I := 0xFFE } : State).ea 2 := by decide

theorem witness_StoreWritesRegisters :
    ({ s0 with I := 0xFF0 } : State).ea (15 : Reg).val ≤ 0xFFF ∧ (15 : Reg) ≤ 15 ∧
      (∀ i : Reg, i ≤ 15 → 0xFEF ≠ ({ s0 with I := 0xFF0 } : State).ea i.val) ∧
      0xFFF < ({ s0 with I := 0xFF1 } : State).ea (15 : Reg).val := by decide

theorem witness_LoadReadsRegisters :
    ({ s0 with I := 0xFFF } : State).ea (0 : Reg).val ≤ 0xFFF ∧
      0xFFF < ({ s0 with I := 0xFFF } : State).ea (1 : Reg).val := by decide

/-- No row at an address outside memory, and the last byte of memory. -/
theorem witness_DrwTogglesSpritePixels :
    ((0x0#4).toNat = 0 ∨ ({ s0 with I := 0xFFFF } : State).ea ((0x0#4).toNat - 1) ≤ 0xFFF) ∧
      ((0xF#4).toNat = 0 ∨ ({ s0 with I := 0xFF1 } : State).ea ((0xF#4).toNat - 1) ≤ 0xFFF) := by decide

/-- A sprite row whose first pixels lie left of the right edge: a pixel changes. -/
theorem witness_DrwClipsAtEdges :
    let s := withData 0xFFF 0xFFF [0xFF] (v12 0x3E 0x1F)
    ((1 : Nat) = 0 ∨ s.ea (1 - 1) ≤ 0xFFF) ∧
      ((next? (exec (.drw 1 2 1) s)).map (fun t => t.fb[31][63] != s.fb[31][63]) = some true) := by decide

/-- A sprite of 1 bits only at the last bytes of memory, and a pixel of its rectangle at the corner of the screen. -/
theorem witness_DrwClipsAtEdges_solid :
    let s := withData 0xFFE 0xFFE [0xFF, 0xFF] (v12 0x3C 0x1E)
    (∀ k, k < 2 → s.mem.byte (s.ea k) = 0xFF) ∧ (s.V[(2 : Reg)]).toNat % 32 ≤ (31 : Fin 32).val ∧
      (31 : Fin 32).val < (s.V[(2 : Reg)]).toNat % 32 + 2 ∧ (s.V[(1 : Reg)]).toNat % 64 ≤ (63 : Fin 64).val ∧
      (63 : Fin 64).val < (s.V[(1 : Reg)]).toNat % 64 + 8 := by decide

theorem witness_DrwClipsAtEdges_flag :
    let s := withData 0x300 0x300 [0x20] { s0 with fb := twoPixels 2 5 }
    (next? (exec (.drw 0 1 1) s)).map (fun t => t.V[regVF]) = some 1 := by decide

theorem witness_DrwFlagIsCollision :
    ∃ t, exec (.drw 0 1 1) (withData 0x300 0x300 [0x20] s0) = .next t := ⟨_, rfl⟩

theorem witness_DrwChecksWholeSprite :
    0xFFF < ({ s0 with I := 0xFFF } : State).ea 1 ∧ 0xFFF < ({ s0 with I := 0x1000 } : State).ea 0 := by decide

theorem witness_SkipsOnKey :
    ((s0.setV 1 15).V[(1 : Reg)]).toNat = (15 : Reg).val ∧ 15 < ((s0.setV 1 16).V[(1 : Reg)]).toNat := by decide

/-- No key; the highest key alone; the lowest with every other. -/
theorem witness_LdVxKWaitsForLowestKey :
    (∀ k : Reg, s0.key[k] = false) ∧
      ((keys 0x8000)[(15 : Reg)] = true ∧ ∀ j : Reg, j < 15 → (keys 0x8000)[j] = false) ∧
      ((keys 0xFFFF)[(0 : Reg)] = true ∧ ∀ j : Reg, j < 0 → (keys 0xFFFF)[j] = false) := by decide

/-- Each side of each equivalence at its boundary. -/
theorem witness_MemoryFaultExactlyOutOfBounds :
    (∃ f, exec (.drw 0 0 2) { s0 with I := 0xFFF } = .fault (.memoryOutOfBounds f)) ∧
      (∃ t, exec (.drw 0 0 1) { s0 with I := 0xFFF } = .next t) ∧
      (∃ f, exec (.ldB 0) { s0 with I := 0xFFE } = .fault (.memoryOutOfBounds f)) ∧
      (∃ t, exec (.ldB 0) { s0 with I := 0xFFD } = .next t) ∧
      (∃ f, exec (.store 15) { s0 with I := 0xFF1 } = .fault (.memoryOutOfBounds f)) ∧
      (∃ t, exec (.store 15) { s0 with I := 0xFF0 } = .next t) ∧
      (∃ f, exec (.load 15) { s0 with I := 0xFF1 } = .fault (.memoryOutOfBounds f)) ∧
      (∃ t, exec (.load 15) { s0 with I := 0xFF0 } = .next t) ∧
      ∃ f, cycle true 0 (({ s0 with I := 0xFFE } : State).withFetchWord 16 0xF033) = .fault (.memoryOutOfBounds f) := 
  ⟨⟨_, rfl⟩, ⟨_, rfl⟩, ⟨_, rfl⟩, ⟨_, rfl⟩, ⟨_, rfl⟩, ⟨_, rfl⟩, ⟨_, rfl⟩, ⟨_, rfl⟩, ⟨_, rfl⟩⟩

/-- A state in which each instruction that can fault does. -/
theorem witness_FaultsFollowTheTable :
    (∃ f, exec .ret s0 = .fault f) ∧ (∃ f, exec (.call 0) { s0 with sp := 16 } = .fault f) ∧
      (∃ f, exec (.skp 1) (s0.setV 1 16) = .fault f) ∧ (∃ f, exec (.sknp 1) (s0.setV 1 16) = .fault f) ∧
      (∃ f, exec (.drw 0 0 1) { s0 with I := 0x1000 } = .fault f) ∧
      (∃ f, exec (.ldB 0) { s0 with I := 0xFFE } = .fault f) ∧
      (∃ f, exec (.store 0) { s0 with I := 0x1000 } = .fault f) ∧
      ∃ f, exec (.load 0) { s0 with I := 0x1000 } = .fault f := 
  ⟨⟨_, rfl⟩, ⟨_, rfl⟩, ⟨_, rfl⟩, ⟨_, rfl⟩, ⟨_, rfl⟩, ⟨_, rfl⟩, ⟨_, rfl⟩, ⟨_, rfl⟩⟩

/-- The first address without a word, the last address of all, and a fault of a handler in a cycle. -/
theorem witness_FaultsFollowTheTable_cycle :
    0xFFF ≤ (at_ 0xFFF s0).pc.toNat ∧ 0xFFF ≤ (at_ 0xFFFF s0).pc.toNat ∧
      fetch ((at_ 0xFFE s0).withFetchWord 16 0x00EE) = .ok 0x00EE#16 ∧
      ∃ f, cycle true 0 ((at_ 0xFFE s0).withFetchWord 16 0x00EE) = .fault f := 
  ⟨by decide, by decide, by decide, ⟨_, rfl⟩⟩

theorem witness_FaultLeavesStateAndRepeats :
    (∃ f, cycle true 0 (at_ 0xFFF s0) = .fault f) ∧ ∃ f, cycle true 0 (s0.withFetchWord 16 0x00EE) = .fault f := 
  ⟨⟨_, rfl⟩, ⟨_, rfl⟩⟩

/-- One instruction for each clause: the flag writers, the draw, and one that leaves VF. -/
theorem witness_FlagRegisterTable :
    (∃ t, exec (.addReg 15 1) s0 = .next t) ∧ (∃ t, exec (.subReg 15 1) s0 = .next t) ∧
      ((∃ t, exec (.shr 14 1) s0 = .next t) ∧ (14 : Reg) ≠ regVF) ∧ (∃ t, exec (.subnReg 15 1) s0 = .next t) ∧
      (∃ t, exec (.shl 14 1) s0 = .next t) ∧ (∃ t, exec (.drw 0 0 0) s0 = .next t) ∧
      (∃ t, exec (.load 14) s0 = .next t) ∧ (Instr.load 14).targetsVF = false := 
  ⟨⟨_, rfl⟩, ⟨_, rfl⟩, ⟨⟨_, rfl⟩, by decide⟩, ⟨_, rfl⟩, ⟨_, rfl⟩, ⟨_, rfl⟩, ⟨_, rfl⟩, by decide⟩

/-- VF as the destination: every form completes, also the wait with no key, with the highest and with every key down. -/
theorem witness_FlagRegisterTable_destination :
    (∃ t, exec (.shr 15 1) s0 = .next t) ∧ (∃ t, exec (.shl 15 1) s0 = .next t) ∧
      (∃ t, exec (.ldByte 15 1) s0 = .next t) ∧ (∃ t, exec (.addByte 15 1) s0 = .next t) ∧
      (∃ t, exec (.ldReg 15 1) s0 = .next t) ∧ (∃ t, exec (.orReg 15 1) s0 = .next t) ∧
      (∃ t, exec (.andReg 15 1) s0 = .next t) ∧ (∃ t, exec (.xorReg 15 1) s0 = .next t) ∧
      (∃ t, exec (.rnd 15 1) s0 = .next t) ∧ (∃ t, exec (.ldVxDT 15) s0 = .next t) ∧
      (∃ t, exec (.ldVxK 15) s0 = .next t) ∧ (∃ t, exec (.ldVxK 15) { s0 with key := keys 0x8000 } = .next t) ∧
      (∃ t, exec (.ldVxK 15) { s0 with key := keys 0xFFFF } = .next t) ∧
      ∃ t, exec (.load 15) { s0 with I := 0xFF0 } = .next t := 
  ⟨⟨_, rfl⟩, ⟨_, rfl⟩, ⟨_, rfl⟩, ⟨_, rfl⟩, ⟨_, rfl⟩, ⟨_, rfl⟩, ⟨_, rfl⟩, ⟨_, rfl⟩, ⟨_, rfl⟩, ⟨_, rfl⟩, ⟨_, rfl⟩, ⟨_, rfl⟩,
    ⟨_, rfl⟩, ⟨_, rfl⟩⟩

/-- The key hypotheses of the wait. -/
theorem witness_FlagRegisterTable_keys :
    (∀ k : Reg, s0.key[k] = false) ∧
      ((keys 0x8000)[(15 : Reg)] = true ∧ ∀ j : Reg, j < 15 → (keys 0x8000)[j] = false) ∧
      ((keys 0xFFFF)[(0 : Reg)] = true ∧ ∀ j : Reg, j < 0 → (keys 0xFFFF)[j] = false) := by decide

/-- An instruction, an unrecognised word and a fault. -/
theorem witness_ProgramCounterTable :
    (fetch selfJump = .ok 0x1200#16 ∧ (∃ t, cycle true 0 selfJump = .next t) ∧ decode 0x1200#16 = .ok (.jp 0x200)) ∧
      (fetch s0 = .ok 0x0000#16 ∧ (∃ t, cycle true 0 s0 = .next t) ∧
        decode 0x0000#16 = .error (.unrecognised 0x0000#16)) ∧
      ∃ f, cycle true 0 (at_ 0xFFF s0) = .fault f := 
  ⟨⟨by decide, ⟨_, rfl⟩, by decide⟩, ⟨by decide, ⟨_, rfl⟩, by decide⟩, ⟨_, rfl⟩⟩

theorem witness_ProgramCounterTable_call :
    let s := { s0 with sp := 15 }.withFetchWord 16 0x2300
    fetch s = .ok 0x2300#16 ∧ (∃ t, cycle true 0 s = .next t) ∧ decode 0x2300#16 = .ok (.call 0x300) ∧ s.sp.val < 16 := 
  ⟨by decide, ⟨_, rfl⟩, by decide, by decide⟩

/-- A load that leaves VF, a store that leaves the byte after its last. -/
theorem witness_WritesFollowAccessMatrix :
    (∃ t, exec (.load 14) s0 = .next t) ∧ (Instr.load 14).writesReg 15 = false ∧
      (∃ t, exec (.store 14) s0 = .next t) ∧ ∀ k, k < (Instr.store 14).storedBytes → 15 ≠ s0.ea k := 
  ⟨⟨_, rfl⟩, by decide, ⟨_, rfl⟩, by decide⟩

/-- A call with one slot left: the slots below keep their values. -/
theorem witness_WritesFollowAccessMatrix_slot :
    (∃ t, exec (.call 0) { s0 with sp := 15 } = .next t) ∧ (14 : Fin 16).val ≠ ({ s0 with sp := 15 } : State).sp.val := 
  ⟨⟨_, rfl⟩, by decide⟩

/-- One instruction meets the hypotheses of all eight clauses. -/
theorem witness_UnreadPartsDoNotMatter :
    (∀ x, Instr.jp 0 ≠ .skp x ∧ Instr.jp 0 ≠ .sknp x ∧ Instr.jp 0 ≠ .ldVxK x) ∧ (∀ x kk, Instr.jp 0 ≠ .rnd x kk) ∧
      (∀ x, Instr.jp 0 ≠ .ldVxDT x ∧ Instr.jp 0 ≠ .ldDTVx x) ∧ (∀ x, Instr.jp 0 ≠ .ldSTVx x) ∧ Instr.jp 0 ≠ .cls ∧
      (∀ x y n, Instr.jp 0 ≠ .drw x y n) ∧ Instr.jp 0 ≠ .ret ∧ (∀ nnn, Instr.jp 0 ≠ .call nnn) ∧
      (∀ x, Instr.jp 0 ≠ .ldB x ∧ Instr.jp 0 ≠ .store x ∧ Instr.jp 0 ≠ .load x) ∧ (∀ nnn, Instr.jp 0 ≠ .ldI nnn) ∧
      ∀ x, Instr.jp 0 ≠ .addI x ∧ Instr.jp 0 ≠ .ldF x := by simp

theorem witness_StepKeepsInv :
    selfJump.Inv ∧ ∃ t, step selfJump = .next t := ⟨by decide, ⟨_, rfl⟩⟩

/-- The highest legal `pc` and return address. -/
theorem witness_StepKeepsInv_top :
    ({ s0 with pc := 0x10FE, sp := 1, stack := s0.stack.set 0 0x1000 } : State).Inv := by decide

theorem witness_HostOperationsKeepInv :
    ({ s0 with sp := 16, mem := [(0x300, 1)] } : State).Inv := by decide

theorem witness_CanonicalMemoryUnique :
    Memory.wf [(0x050, 0), (0xFFF, 1)] ∧
      ∀ a, Memory.byte [(0x050, 0), (0xFFF, 1)] a = Memory.byte [(0x050, 0), (0xFFF, 1)] a := ⟨by decide, fun _ => rfl⟩

/-- A store to the last two bytes of memory, and the highest address a word is fetched from. -/
theorem witness_StoreIsSeenByNextFetch :
    (∃ t, exec (.store 1) { s0 with I := 0xFFE } = .next t) ∧ (0xFFE : Word).toNat ≤ 0xFFE := 
  ⟨⟨_, rfl⟩, by decide⟩

/-- A cycle whose Fx33 stores its last digit into the first byte of the next word. -/
theorem witness_StoreIsSeenByNextFetch_cycle :
    let s := ({ s0 with I := 0x200 } : State).withFetchWord 16 0xF033
    fetch s = .ok 0xF033#16 ∧ decode 0xF033#16 = .ok (.ldB 0) ∧
      ∃ t, cycle false 0 s = .next t ∧ t.pc.toNat ≤ 0xFFE ∧ (Instr.ldB 0).byteAfter s t.pc.toNat = 0 := 
  ⟨by decide, by decide, ⟨_, rfl, by decide, by decide⟩⟩

theorem witness_SelfJumpStaysPut :
    selfJump.pc.toNat ≤ 0xFFE ∧
      (wordOfBytes (selfJump.mem.byte selfJump.pc.toNat) (selfJump.mem.byte (selfJump.pc.toNat + 1))).toNat =
        0x1000 + selfJump.pc.toNat := by decide

end Sys2Proof.Tests
end

section
/-!
PROOFS. The cycle engine (spec/40_cycle_engine.md): the word a fetch forms and the fault it raises, and the host's two
reads.
-/
namespace Sys2Proof

/-- The value of a big-endian pair of bytes (R51). -/
theorem wordOfBytes_toNat (hi lo : Byte) : (wordOfBytes hi lo).toNat = 256 * hi.toNat + lo.toNat := by
  rw [wordOfBytes, append_toNat]
  omega

end Sys2Proof

namespace Sys2Proof.Machine

/-- A fetch from inside memory succeeds, whatever the parity of `pc` (R109). -/
theorem fetch_of_le {s : State} (h : s.pc.toNat ≤ 0xFFE) :
    fetch s = .ok (wordOfBytes (s.mem.byte s.pc.toNat) (s.mem.byte (s.pc.toNat + 1))) :=
  fetch_eq_ok.2 ⟨h, rfl⟩

/-- A cycle whose word would lie outside memory ends in the fetch's fault (R109, R222). -/
theorem cycle_of_pc_ge {s : State} (h : 0xFFF ≤ s.pc.toNat) (tick : Bool) (rnd : Byte) :
    cycle tick rnd s = .fault (.fetchOutOfBounds ⟨s.pc, none, max s.pc.toNat 0x1000⟩) :=
  cycle_eq_fault.2 (.inl (fetch_eq_error.2 ⟨h, rfl⟩))

/-- Settles O7: the fetch and cycle lemmas give the word and the fault; what remains is the value of the word and the
lowest invalid address as a maximum. -/
theorem fetchBigEndianOrFault : Obligations.FetchBigEndianOrFault := by
  unfold Obligations.FetchBigEndianOrFault
  intro s
  constructor
  · intro hpc
    exact ⟨_, fetch_of_le hpc, wordOfBytes_toNat _ _⟩
  · intro hpc tick rnd
    refine ⟨_, cycle_of_pc_ge hpc tick rnd, ?_⟩
    have haux : max s.pc.toNat 0x1000 = if s.pc.toNat = 0xFFF then 0x1000 else s.pc.toNat := by
      split <;> omega
    exact haux

/-- The host's read of the frame buffer (R122). -/
@[simp] theorem perform_readFrameBuffer (tick : Bool) (s : State) :
    perform tick .readFrameBuffer s = (s, .frame s.fb) := rfl

/-- The host's read of the timers (R122). -/
@[simp] theorem perform_readTimers (tick : Bool) (s : State) :
    perform tick .readTimers s = (s, .timers s.DT s.ST) := rfl

/-- Settles O15: each read answers from the state it is given and hands that state back. -/
theorem readsReturnAndChangeNothing : Obligations.ReadsReturnAndChangeNothing :=
  fun tick s => ⟨perform_readFrameBuffer tick s, perform_readTimers tick s⟩

end Sys2Proof.Machine
end

section
/-!
PROOFS. Control flow (spec/41_control_flow.md): the jump, the call and the skips on a byte or on two registers.
-/
namespace Sys2Proof

/-! ## Decoding of families 1 to 5 and 9 (R86) -/

theorem decode_formatNNN_jp (nnn : Imm12) : decode (formatNNN 0x1#4 nnn) = .ok (.jp nnn) := by
  simp [decode, family_formatNNN, fieldNNN_formatNNN]

theorem decode_formatNNN_call (nnn : Imm12) : decode (formatNNN 0x2#4 nnn) = .ok (.call nnn) := by
  simp [decode, family_formatNNN, fieldNNN_formatNNN]

theorem decode_formatXKK_seByte (x : Reg) (kk : Byte) : decode (formatXKK 0x3#4 x kk) = .ok (.seByte x kk) := by
  simp [decode, family_formatXKK, fieldX_formatXKK, fieldKK_formatXKK]

theorem decode_formatXKK_sneByte (x : Reg) (kk : Byte) : decode (formatXKK 0x4#4 x kk) = .ok (.sneByte x kk) := by
  simp [decode, family_formatXKK, fieldX_formatXKK, fieldKK_formatXKK]

theorem decode_formatXY_seReg (x y : Reg) : decode (formatXY 0x5#4 x y 0x0#4) = .ok (.seReg x y) := by
  simp [decode, family_formatXY, nibble4_formatXY, fieldX_formatXY, fieldY_formatXY]

theorem decode_formatXY_sneReg (x y : Reg) : decode (formatXY 0x9#4 x y 0x0#4) = .ok (.sneReg x y) := by
  simp [decode, family_formatXY, nibble4_formatXY, fieldX_formatXY, fieldY_formatXY]

end Sys2Proof

namespace Sys2Proof.Machine

/-! ## The target of a jump, and the frames of the two changes of `pc` -/

/-- A 12-bit address keeps its value as a 16-bit one. -/
theorem addrOfImm_toNat (nnn : Imm12) : (addrOfImm nnn).toNat = nnn.toNat := by
  have := nnn.isLt
  rw [addrOfImm, BitVec.toNat_setWidth]
  omega

theorem State.sameBut_setPc (s : State) (v : Word) : State.SameBut { pc := true } s (s.setPc v) := by
  simp [State.SameBut]

theorem State.sameBut_skipIf (s : State) (c : Bool) : State.SameBut { pc := true } s (s.skipIf c) := by
  simp [State.SameBut]

/-- A skip on equality (R134, R136). -/
theorem State.skipIf_beq_pc (s : State) (a b : Byte) :
    (s.skipIf (a == b)).pc = if a = b then s.pc + 2 else s.pc := by
  simp

/-- A skip on inequality (R135, R137). -/
theorem State.skipIf_bne_pc (s : State) (a b : Byte) :
    (s.skipIf (a != b)).pc = if a = b then s.pc else s.pc + 2 := by
  simp

/-! ## The handlers -/

theorem exec_jp (nnn : Imm12) (s : State) : exec (.jp nnn) s = .next (s.setPc (addrOfImm nnn)) := rfl

theorem exec_seByte (x : Reg) (kk : Byte) (s : State) : exec (.seByte x kk) s = .next (s.skipIf (s.V[x] == kk)) := rfl

theorem exec_sneByte (x : Reg) (kk : Byte) (s : State) : exec (.sneByte x kk) s = .next (s.skipIf (s.V[x] != kk)) :=
  rfl

theorem exec_seReg (x y : Reg) (s : State) : exec (.seReg x y) s = .next (s.skipIf (s.V[x] == s.V[y])) := rfl

theorem exec_sneReg (x y : Reg) (s : State) : exec (.sneReg x y) s = .next (s.skipIf (s.V[x] != s.V[y])) := rfl

theorem exec_call (nnn : Imm12) (s : State) : exec (.call nnn) s = execCall nnn s := rfl

/-- A call with room on the stack: the entered `pc` goes to the slot `sp` (R133). -/
theorem exec_call_of_lt {s : State} (h : s.sp.val < 16) (nnn : Imm12) :
    exec (.call nnn) s = .next (State.setPc
      { s with stack := s.stack.set s.sp.val s.pc h, sp := ⟨s.sp.val + 1, by omega⟩ } (addrOfImm nnn)) := by
  rw [exec_call, execCall, State.push?_spec s s.pc h]

/-- A call with 16 addresses held (R133). -/
theorem exec_call_of_full {s : State} (h : s.sp.val = 16) (nnn : Imm12) :
    exec (.call nnn) s = .fault (.stackOverflow ⟨s.instrAddr, some s.opcode, 0⟩) := by
  rw [exec_call, execCall, (State.push?_eq_none s s.pc).2 h, raise]

/-! ## The statements -/

/-- Settles O18: the handler is one write of `pc`, and the 12-bit target keeps its value. -/
theorem jpSetsProgramCounter : Obligations.JpSetsProgramCounter := by
  unfold Obligations.JpSetsProgramCounter
  intro nnn
  exact ⟨decode_formatNNN_jp nnn, fun s => ⟨_, exec_jp nnn s, addrOfImm_toNat nnn, s.sameBut_setPc _⟩⟩

/-- Settles O19, by the two cases of the push: a slot is free, or all 16 are held. -/
theorem callPushesAndJumps : Obligations.CallPushesAndJumps := by
  unfold Obligations.CallPushesAndJumps
  intro nnn
  refine ⟨decode_formatNNN_call nnn, fun s => ⟨fun h => ?_, fun h => ⟨_, exec_call_of_full h nnn⟩⟩⟩
  refine ⟨_, exec_call_of_lt h nnn, rfl, addrOfImm_toNat nnn, ?slot, ?otherSlots, ?frame⟩
  case slot => exact Vector.getElem_set_self h
  case otherSlots =>
    intro j hj
    exact Vector.getElem_set_ne h j.isLt hj.symm
  case frame => simp [State.SameBut]

/-- Settles O20: both skips are `skipIf` on the comparison of `V[x]` with `kk`. -/
theorem skipsOnImmediate : Obligations.SkipsOnImmediate := by
  unfold Obligations.SkipsOnImmediate
  intro x kk
  refine ⟨decode_formatXKK_seByte x kk, decode_formatXKK_sneByte x kk, fun s => ⟨?_, ?_⟩⟩
  · exact ⟨_, exec_seByte x kk s, s.skipIf_beq_pc _ _, s.sameBut_skipIf _⟩
  · exact ⟨_, exec_sneByte x kk s, s.skipIf_bne_pc _ _, s.sameBut_skipIf _⟩

/-- Settles O21: both skips are `skipIf` on the comparison of `V[x]` with `V[y]`. -/
theorem skipsOnRegisters : Obligations.SkipsOnRegisters := by
  unfold Obligations.SkipsOnRegisters
  intro x y
  refine ⟨decode_formatXY_seReg x y, decode_formatXY_sneReg x y, fun s => ⟨?_, ?_⟩⟩
  · exact ⟨_, exec_seReg x y s, s.skipIf_beq_pc _ _, s.sameBut_skipIf _⟩
  · exact ⟨_, exec_sneReg x y s, s.skipIf_bne_pc _ _, s.sameBut_skipIf _⟩

end Sys2Proof.Machine
end

section
/-!
PROOFS. Registers and arithmetic (spec/42_register_alu.md): the loads, the addition of a byte and the bitwise
operations, each a write of one register.
-/
namespace Sys2Proof

/-! ## Decoding of families 6 and 7, and of family 8 with selectors 0 to 3 (R86) -/

theorem decode_formatXKK_ldByte (x : Reg) (kk : Byte) : decode (formatXKK 0x6#4 x kk) = .ok (.ldByte x kk) := by
  simp [decode, family_formatXKK, fieldX_formatXKK, fieldKK_formatXKK]

theorem decode_formatXKK_addByte (x : Reg) (kk : Byte) : decode (formatXKK 0x7#4 x kk) = .ok (.addByte x kk) := by
  simp [decode, family_formatXKK, fieldX_formatXKK, fieldKK_formatXKK]

/-- Family 8 goes by the selector alone (R84). -/
theorem decode_formatXY_family8 (x y : Reg) (n : BitVec 4) :
    decode (formatXY 0x8#4 x y n) = decodeFamily8 (formatXY 0x8#4 x y n) := by
  simp [decode, family_formatXY]

theorem decode_formatXY_ldReg (x y : Reg) : decode (formatXY 0x8#4 x y 0x0#4) = .ok (.ldReg x y) := by
  simp [decode_formatXY_family8, decodeFamily8, nibble4_formatXY, fieldX_formatXY, fieldY_formatXY]

theorem decode_formatXY_orReg (x y : Reg) : decode (formatXY 0x8#4 x y 0x1#4) = .ok (.orReg x y) := by
  simp [decode_formatXY_family8, decodeFamily8, nibble4_formatXY, fieldX_formatXY, fieldY_formatXY]

theorem decode_formatXY_andReg (x y : Reg) : decode (formatXY 0x8#4 x y 0x2#4) = .ok (.andReg x y) := by
  simp [decode_formatXY_family8, decodeFamily8, nibble4_formatXY, fieldX_formatXY, fieldY_formatXY]

theorem decode_formatXY_xorReg (x y : Reg) : decode (formatXY 0x8#4 x y 0x3#4) = .ok (.xorReg x y) := by
  simp [decode_formatXY_family8, decodeFamily8, nibble4_formatXY, fieldX_formatXY, fieldY_formatXY]

end Sys2Proof

namespace Sys2Proof.Machine

/-! ## The value and the frame of a write of one register -/

theorem State.setV_V_self (s : State) (x : Reg) (v : Byte) : (s.setV x v).V[x] = v := by
  rw [State.setV_V_get, if_pos rfl]

theorem State.otherRegs_setV (s : State) (x : Reg) (v : Byte) : State.OtherRegs [x] s (s.setV x v) := by
  intro r hr
  rw [State.setV_V_get, if_neg (List.ne_of_not_mem_cons hr)]

theorem State.sameBut_setV (s : State) (x : Reg) (v : Byte) : State.SameBut { V := true } s (s.setV x v) := by
  simp [State.SameBut]

/-- The sum of two bytes wraps (R152). -/
theorem sumByte_toNat (a b : Byte) : (sumByte a b).toNat = (a.toNat + b.toNat) % 256 :=
  BitVec.toNat_ofNat _ _

/-! ## The handlers -/

theorem exec_ldByte (x : Reg) (kk : Byte) (s : State) : exec (.ldByte x kk) s = .next (s.setV x kk) := rfl

theorem exec_addByte (x : Reg) (kk : Byte) (s : State) :
    exec (.addByte x kk) s = .next (s.setV x (sumByte s.V[x] kk)) := rfl

theorem exec_ldReg (x y : Reg) (s : State) : exec (.ldReg x y) s = .next (s.setV x s.V[y]) := rfl

theorem exec_orReg (x y : Reg) (s : State) : exec (.orReg x y) s = .next (s.setV x (s.V[x] ||| s.V[y])) := rfl

theorem exec_andReg (x y : Reg) (s : State) : exec (.andReg x y) s = .next (s.setV x (s.V[x] &&& s.V[y])) := rfl

theorem exec_xorReg (x y : Reg) (s : State) : exec (.xorReg x y) s = .next (s.setV x (s.V[x] ^^^ s.V[y])) := rfl

/-! ## The statements -/

/-- Settles O23: the handler is one write of `V[x]`. -/
theorem ldByteWritesImmediate : Obligations.LdByteWritesImmediate := by
  unfold Obligations.LdByteWritesImmediate
  intro x kk
  refine ⟨decode_formatXKK_ldByte x kk, fun s => ?_⟩
  exact ⟨_, exec_ldByte x kk s, s.setV_V_self x _, s.otherRegs_setV x _, s.sameBut_setV x _⟩

/-- Settles O24: the handler is one write of `V[x]`, and the byte written is the sum modulo 256. -/
theorem addByteWrapsWithoutFlag : Obligations.AddByteWrapsWithoutFlag := by
  unfold Obligations.AddByteWrapsWithoutFlag
  intro x kk
  refine ⟨decode_formatXKK_addByte x kk, fun s => ?_⟩
  refine ⟨_, exec_addByte x kk s, ?sum, s.otherRegs_setV x _, s.sameBut_setV x _⟩
  case sum => rw [State.setV_V_self, sumByte_toNat]

/-- Settles O25: the handler is one write of `V[x]`, with the `V[y]` of the state it was given. -/
theorem ldRegCopies : Obligations.LdRegCopies := by
  unfold Obligations.LdRegCopies
  intro x y
  refine ⟨decode_formatXY_ldReg x y, fun s => ?_⟩
  exact ⟨_, exec_ldReg x y s, s.setV_V_self x _, s.otherRegs_setV x _, s.sameBut_setV x _⟩

/-- Settles O26: each handler is one write of `V[x]`, and the byte written is the operation on words, which acts on
each bit alone. -/
theorem logicIsBitwise : Obligations.LogicIsBitwise := by
  unfold Obligations.LogicIsBitwise
  intro x y
  refine ⟨decode_formatXY_orReg x y, decode_formatXY_andReg x y, decode_formatXY_xorReg x y, fun s => ?_⟩
  refine ⟨?or, ?and, ?xor⟩
  case or =>
    refine ⟨_, exec_orReg x y s, s.otherRegs_setV x _, s.sameBut_setV x _, fun k => ?_⟩
    rw [State.setV_V_self, BitVec.getLsbD_or]
  case and =>
    refine ⟨_, exec_andReg x y s, s.otherRegs_setV x _, s.sameBut_setV x _, fun k => ?_⟩
    rw [State.setV_V_self, BitVec.getLsbD_and]
  case xor =>
    refine ⟨_, exec_xorReg x y s, s.otherRegs_setV x _, s.sameBut_setV x _, fun k => ?_⟩
    rw [State.setV_V_self, BitVec.getLsbD_xor]

end Sys2Proof.Machine
end

section
/-!
PROOFS. Index register and memory (spec/43_index_memory.md): the load of the index register.
-/
namespace Sys2Proof

/-- Family A of the opcode table (R86). -/
theorem decode_formatNNN_ldI (nnn : Imm12) : decode (formatNNN 0xA#4 nnn) = .ok (.ldI nnn) := by
  simp [decode, family_formatNNN, fieldNNN_formatNNN]

end Sys2Proof

namespace Sys2Proof.Machine

theorem State.sameBut_setI (s : State) (v : Word) : State.SameBut { I := true } s (s.setI v) := by
  simp [State.SameBut]

theorem exec_ldI (nnn : Imm12) (s : State) : exec (.ldI nnn) s = .next (s.setI (addrOfImm nnn)) := rfl

/-- Settles O31: the handler is one write of `I`, and the 12-bit value keeps its value, so the high 4 bits are 0. -/
theorem ldISetsIndex : Obligations.LdISetsIndex := by
  unfold Obligations.LdISetsIndex
  intro nnn
  exact ⟨decode_formatNNN_ldI nnn, fun s => ⟨_, exec_ldI nnn s, addrOfImm_toNat nnn, s.sameBut_setI _⟩⟩

end Sys2Proof.Machine
end

section
/-!
PROOFS. Display (spec/44_display.md): the clear, and what a draw does to the pixels and to VF.
-/
namespace Sys2Proof

/-- Family 0 goes by the whole word (R84). -/
theorem decode_cls : decode 0x00E0#16 = .ok .cls := rfl

end Sys2Proof

namespace Sys2Proof.Machine

/-! ## The clear -/

theorem FrameBuffer.blank_px (r : Fin 32) (c : Fin 64) : FrameBuffer.blank[r][c] = false := by
  simp [FrameBuffer.blank]

theorem State.sameBut_setFb (s : State) (fb : FrameBuffer) : State.SameBut { fb := true } s (s.setFb fb) := by
  simp [State.SameBut]

theorem exec_cls (s : State) : exec .cls s = .next (s.setFb FrameBuffer.blank) := rfl

/-- Settles O37: the handler is one write of the frame buffer, with the blank one. -/
theorem clsClearsFrameBuffer : Obligations.ClsClearsFrameBuffer := by
  unfold Obligations.ClsClearsFrameBuffer
  exact ⟨decode_cls, fun s => ⟨_, exec_cls s, FrameBuffer.blank_px, s.sameBut_setFb _⟩⟩

/-! ## A flag as a byte -/

theorem flagByte_eq_one_iff (b : Bool) : flagByte b = 1 ↔ b = true := by
  cases b <;> decide

theorem flagByte_eq_zero_or_one (b : Bool) : flagByte b = 0 ∨ flagByte b = 1 := by
  cases b <;> decide

/-! ## The outcome of a draw -/

/-- The frame buffer of `s` with the sprite of `Dxyn` drawn on it. -/
def State.spriteCanvas (s : State) (x y : Reg) (n : Nat) : Canvas :=
  Canvas.plotRows ⟨s.fb, false⟩ ((s.V[y]).toNat % 32) ((s.V[x]).toNat % 64) (s.mem.bytes (s.ea 0) n)

/-- The state a draw leads to when its sprite lies in memory. -/
def State.draw (s : State) (x y : Reg) (n : Nat) : State :=
  (s.setFb (s.spriteCanvas x y n).fb).setVF (flagByte (s.spriteCanvas x y n).collision)

theorem State.draw_fb (s : State) (x y : Reg) (n : Nat) : (s.draw x y n).fb = (s.spriteCanvas x y n).fb := rfl

theorem State.draw_VF (s : State) (x y : Reg) (n : Nat) :
    (s.draw x y n).V[regVF] = flagByte (s.spriteCanvas x y n).collision := by
  rw [State.draw, State.setVF_V_get, if_pos rfl]

/-- A draw checks all of its sprite and then draws (R192, R196). -/
theorem exec_drw (x y : Reg) (n : Nat) (s : State) :
    exec (.drw x y n) s =
      if inBounds (s.ea 0) n then .next (s.draw x y n)
      else raise .memoryOutOfBounds (lowestInvalid (s.ea 0)) s := rfl

/-- Bytes `0` to `n - 1` from `I` lie in memory exactly when the last one does, if there is one. -/
theorem State.inBounds_ea_iff (s : State) (n : Nat) :
    inBounds (s.ea 0) n = true ↔ n = 0 ∨ s.ea (n - 1) ≤ 0xFFF := by
  rw [inBounds_iff, State.ea, State.ea]
  omega

theorem exec_drw_of_inBounds {s : State} {n : Nat} (h : n = 0 ∨ s.ea (n - 1) ≤ 0xFFF) (x y : Reg) :
    exec (.drw x y n) s = .next (s.draw x y n) := by
  rw [exec_drw, if_pos ((s.inBounds_ea_iff n).2 h)]

/-- A draw that completes leads to `State.draw`. -/
theorem eq_draw_of_exec_drw {x y : Reg} {n : Nat} {s t : State} (h : exec (.drw x y n) s = .next t) :
    t = s.draw x y n := by
  rw [exec_drw] at h
  split at h
  next => exact (Host.Outcome.next.inj h).symm
  next => cases h

/-! ## The pixels after a draw (R192 to R194) -/

/-- Row `i`, column `j` lies in the `n` by 8 rectangle from the wrapped start of `Dxyn`. -/
abbrev State.InSpriteRect (s : State) (x y : Reg) (n i j : Nat) : Prop :=
  (s.V[y]).toNat % 32 ≤ i ∧ i < (s.V[y]).toNat % 32 + n ∧ (s.V[x]).toNat % 64 ≤ j ∧ j < (s.V[x]).toNat % 64 + 8

/-- Whether the sprite of `Dxyn` has a set bit at row `i`, column `j`: bit `7 - b` of byte `k` lies `k` rows below and
`b` columns right of the start. -/
def State.spriteAt (s : State) (x y : Reg) (n i j : Nat) : Bool :=
  decide (s.InSpriteRect x y n i j) &&
    (s.mem.byte (s.ea (i - (s.V[y]).toNat % 32))).getLsbD (7 - (j - (s.V[x]).toNat % 64))

/-- Row `k` of a sprite read from memory is the byte `k` above its start. -/
theorem spriteBit_bytes (m : Memory) (a n r c i j : Nat) :
    spriteBit r c (m.bytes a n) i j =
      (decide (r ≤ i ∧ i < r + n ∧ c ≤ j ∧ j < c + 8) && (m.byte (a + (i - r))).getLsbD (7 - (j - c))) := by
  rw [spriteBit, Memory.getD_bytes]
  by_cases hrow : r ≤ i ∧ i < r + n
  · have hlt : i - r < n := by omega
    simp [hrow, hlt]
  · by_cases hr : r ≤ i
    · have hge : ¬ i - r < n := by omega
      have hout : ¬ i < r + n := by omega
      simp [hge, hout]
    · simp [hr]

theorem State.spriteBit_eq_spriteAt (s : State) (x y : Reg) (n i j : Nat) :
    spriteBit ((s.V[y]).toNat % 32) ((s.V[x]).toNat % 64) (s.mem.bytes (s.ea 0) n) i j = s.spriteAt x y n i j :=
  spriteBit_bytes ..

/-- A draw toggles exactly the pixels under a set bit of its sprite. -/
theorem State.draw_px (s : State) (x y : Reg) (n : Nat) (i : Fin 32) (j : Fin 64) :
    (s.draw x y n).fb[i][j] = (s.fb[i][j] ^^ s.spriteAt x y n i j) := by
  rw [State.draw_fb, State.spriteCanvas, Canvas.plotRows_px, State.spriteBit_eq_spriteAt]

/-- The body of a sprite does not wrap: it stays in the rectangle from its start (R194). -/
theorem State.inSpriteRect_of_spriteAt {s : State} {x y : Reg} {n i j : Nat} (h : s.spriteAt x y n i j = true) :
    s.InSpriteRect x y n i j :=
  of_decide_eq_true (Bool.and_eq_true_iff.1 h).1

/-- A sprite of bytes 0xFF has a set bit everywhere in its rectangle. -/
theorem State.spriteAt_of_solid {s : State} {x y : Reg} {n i j : Nat}
    (hsolid : ∀ k, k < n → s.mem.byte (s.ea k) = 0xFF) (hrect : s.InSpriteRect x y n i j) :
    s.spriteAt x y n i j = true := by
  have hrow : i - (s.V[y]).toNat % 32 < n := by omega
  have hff : (0xFF : Byte) = BitVec.allOnes 8 := rfl
  have hbit : 7 - (j - (s.V[x]).toNat % 64) < 8 := by omega
  rw [State.spriteAt, hsolid _ hrow, hff, BitVec.getLsbD_allOnes, decide_eq_true hrect, decide_eq_true hbit]
  rfl

/-! ## VF after a draw (R195) -/

/-- A set bit on a pixel that was on is a pixel that goes off. -/
theorem State.spriteCanvas_collision (s : State) (x y : Reg) (n : Nat) :
    (s.spriteCanvas x y n).collision = true ↔
      ∃ (i : Fin 32) (j : Fin 64), s.fb[i][j] = true ∧ (s.draw x y n).fb[i][j] = false := by
  rw [State.spriteCanvas, Canvas.plotRows_collision]
  simp only [State.draw_px, ← State.spriteBit_eq_spriteAt, Bool.false_eq_true, false_or]
  refine exists_congr fun i => exists_congr fun j => ?_
  constructor
  · rintro ⟨hbit, hon⟩
    exact ⟨hon, by rw [hon, hbit]; rfl⟩
  · rintro ⟨hon, hoff⟩
    rw [hon, Bool.true_xor, Bool.not_eq_false'] at hoff
    exact ⟨hoff, hon⟩

theorem State.draw_VF_eq_one_iff (s : State) (x y : Reg) (n : Nat) :
    (s.draw x y n).V[regVF] = 1 ↔
      ∃ (i : Fin 32) (j : Fin 64), s.fb[i][j] = true ∧ (s.draw x y n).fb[i][j] = false := by
  rw [State.draw_VF, flagByte_eq_one_iff, State.spriteCanvas_collision]

theorem State.draw_VF_eq_zero_or_one (s : State) (x y : Reg) (n : Nat) :
    (s.draw x y n).V[regVF] = 0 ∨ (s.draw x y n).V[regVF] = 1 := by
  rw [State.draw_VF]
  exact flagByte_eq_zero_or_one _

/-! ## The statements -/

/-- Settles O39: a draw toggles the pixels under its sprite's set bits, and those lie in the rectangle from the wrapped
start. -/
theorem drwClipsAtEdges : Obligations.DrwClipsAtEdges := by
  unfold Obligations.DrwClipsAtEdges
  intro x y n s hmem
  refine ⟨_, exec_drw_of_inBounds hmem x y, ?clipped, ?solid, ?flag⟩
  case clipped =>
    intro r c hchanged
    rw [State.draw_px] at hchanged
    have hbit : s.spriteAt x y n r c = true := by
      by_contra hno
      rw [Bool.eq_false_iff.2 hno, Bool.xor_false] at hchanged
      exact hchanged rfl
    exact State.inSpriteRect_of_spriteAt hbit
  case solid =>
    intro hsolid r c htop hbottom hleft hright
    rw [State.draw_px, State.spriteAt_of_solid hsolid ⟨htop, hbottom, hleft, hright⟩, Bool.xor_true]
  case flag =>
    intro hflag
    exact (s.draw_VF_eq_one_iff x y n).1 ((s.draw_VF_eq_zero_or_one x y n).resolve_left hflag)

/-- Settles O40: a completed draw leads to `State.draw`, whose VF is the collision flag of the canvas as a byte. -/
theorem drwFlagIsCollision : Obligations.DrwFlagIsCollision := by
  unfold Obligations.DrwFlagIsCollision
  intro x y n s t h
  obtain rfl := eq_draw_of_exec_drw h
  exact ⟨s.draw_VF_eq_one_iff x y n, s.draw_VF_eq_zero_or_one x y n⟩

end Sys2Proof.Machine
end

section
/-!
PROOFS. Keypad and timers (spec/45_keypad_timers.md): the wait for a key and the three moves between `V[x]` and the
timers.
-/
namespace Sys2Proof

/-! ## Decoding of family F with selectors 07, 0A, 15 and 18 (R86) -/

/-- Family F goes by the low byte alone (R84). -/
theorem decode_formatXKK_familyF (x : Reg) (kk : Byte) :
    decode (formatXKK 0xF#4 x kk) = decodeFamilyF (formatXKK 0xF#4 x kk) := by
  simp [decode, family_formatXKK]

theorem decode_formatXKK_ldVxDT (x : Reg) : decode (formatXKK 0xF#4 x 0x07#8) = .ok (.ldVxDT x) := by
  simp [decode_formatXKK_familyF, decodeFamilyF, fieldX_formatXKK, fieldKK_formatXKK]

theorem decode_formatXKK_ldVxK (x : Reg) : decode (formatXKK 0xF#4 x 0x0A#8) = .ok (.ldVxK x) := by
  simp [decode_formatXKK_familyF, decodeFamilyF, fieldX_formatXKK, fieldKK_formatXKK]

theorem decode_formatXKK_ldDTVx (x : Reg) : decode (formatXKK 0xF#4 x 0x15#8) = .ok (.ldDTVx x) := by
  simp [decode_formatXKK_familyF, decodeFamilyF, fieldX_formatXKK, fieldKK_formatXKK]

theorem decode_formatXKK_ldSTVx (x : Reg) : decode (formatXKK 0xF#4 x 0x18#8) = .ok (.ldSTVx x) := by
  simp [decode_formatXKK_familyF, decodeFamilyF, fieldX_formatXKK, fieldKK_formatXKK]

end Sys2Proof

namespace Sys2Proof.Machine

/-! ## The frames of the timer writes, and a key number as a byte -/

theorem State.sameBut_setDT (s : State) (v : Byte) : State.SameBut { DT := true } s (s.setDT v) := by
  simp [State.SameBut]

theorem State.sameBut_setST (s : State) (v : Byte) : State.SameBut { ST := true } s (s.setST v) := by
  simp [State.SameBut]

/-- A key number fits in a byte. -/
theorem keyByte_toNat (k : Reg) : (BitVec.ofNat 8 k.val).toNat = k.val := by
  rw [BitVec.toNat_ofNat]
  omega

/-! ## The handlers -/

theorem exec_ldVxDT (x : Reg) (s : State) : exec (.ldVxDT x) s = .next (s.setV x s.DT) := rfl

theorem exec_ldDTVx (x : Reg) (s : State) : exec (.ldDTVx x) s = .next (s.setDT s.V[x]) := rfl

theorem exec_ldSTVx (x : Reg) (s : State) : exec (.ldSTVx x) s = .next (s.setST s.V[x]) := rfl

theorem exec_ldVxK (x : Reg) (s : State) : exec (.ldVxK x) s = execLdVxK x s := rfl

/-- With every key up the wait goes back by the two bytes of the advance, to its own address (R204). -/
theorem exec_ldVxK_of_keys_up {s : State} (h : ∀ k : Reg, s.key[k] = false) (x : Reg) :
    exec (.ldVxK x) s = .next (s.setPc (s.pc - 2)) := by
  rw [exec_ldVxK, execLdVxK, s.lowestKey?_eq_none.2 h]
  rfl

/-- With a key down the wait ends with the lowest one in `V[x]` (R204). -/
theorem exec_ldVxK_of_lowest {s : State} {k : Reg} (hdown : s.key[k] = true)
    (hlower : ∀ j : Reg, j < k → s.key[j] = false) (x : Reg) :
    exec (.ldVxK x) s = .next (s.setV x (BitVec.ofNat 8 k.val)) := by
  rw [exec_ldVxK, execLdVxK, (s.lowestKey?_eq_some k).2 ⟨hdown, hlower⟩]

/-! ## The statements -/

/-- Settles O43: the handler is one write of `V[x]`, with the delay timer. -/
theorem ldVxDTReadsDelayTimer : Obligations.LdVxDTReadsDelayTimer := by
  unfold Obligations.LdVxDTReadsDelayTimer
  intro x
  refine ⟨decode_formatXKK_ldVxDT x, fun s => ?_⟩
  exact ⟨_, exec_ldVxDT x s, s.setV_V_self x _, s.otherRegs_setV x _, s.sameBut_setV x _⟩

/-- Settles O44, by the two answers of the search for the lowest pressed key: none, a write of `pc`; or one, a write of
`V[x]`. -/
theorem ldVxKWaitsForLowestKey : Obligations.LdVxKWaitsForLowestKey := by
  unfold Obligations.LdVxKWaitsForLowestKey
  intro x
  refine ⟨decode_formatXKK_ldVxK x, fun s => ⟨?waits, ?takes⟩⟩
  case waits =>
    intro hup
    exact ⟨_, exec_ldVxK_of_keys_up hup x, State.setPc_pc _ _, s.sameBut_setPc _⟩
  case takes =>
    intro k hdown hlower
    refine ⟨_, exec_ldVxK_of_lowest hdown hlower x, ?key, s.otherRegs_setV x _, s.sameBut_setV x _⟩
    case key => rw [State.setV_V_self, keyByte_toNat]

/-- Settles O45: each handler is one write of its timer, with `V[x]`. -/
theorem timersAreSetFromRegister : Obligations.TimersAreSetFromRegister := by
  unfold Obligations.TimersAreSetFromRegister
  intro x
  refine ⟨decode_formatXKK_ldDTVx x, decode_formatXKK_ldSTVx x, fun s => ⟨?delay, ?sound⟩⟩
  case delay => exact ⟨_, exec_ldDTVx x s, State.setDT_DT _ _, s.sameBut_setDT _⟩
  case sound => exact ⟨_, exec_ldSTVx x s, State.setST_ST _ _, s.sameBut_setST _⟩

end Sys2Proof.Machine
end

section
/-!
PROOFS. The decoder and the encoder (spec/30_encoding.md): a word is made of its fields, so decoding undoes encoding and
encoding undoes decoding; and the opcode table (R86) says which words decode.
-/
namespace Sys2Proof

/-! ## Decoding of the other formats (R86) -/

theorem decode_ret : decode 0x00EE#16 = .ok .ret := rfl

theorem decode_formatNNN_jpV0 (nnn : Imm12) : decode (formatNNN 0xB#4 nnn) = .ok (.jpV0 nnn) := by
  simp [decode, family_formatNNN, fieldNNN_formatNNN]

theorem decode_formatXY_addReg (x y : Reg) : decode (formatXY 0x8#4 x y 0x4#4) = .ok (.addReg x y) := by
  simp [decode_formatXY_family8, decodeFamily8, nibble4_formatXY, fieldX_formatXY, fieldY_formatXY]

theorem decode_formatXY_subReg (x y : Reg) : decode (formatXY 0x8#4 x y 0x5#4) = .ok (.subReg x y) := by
  simp [decode_formatXY_family8, decodeFamily8, nibble4_formatXY, fieldX_formatXY, fieldY_formatXY]

theorem decode_formatXY_shr (x y : Reg) : decode (formatXY 0x8#4 x y 0x6#4) = .ok (.shr x y) := by
  simp [decode_formatXY_family8, decodeFamily8, nibble4_formatXY, fieldX_formatXY, fieldY_formatXY]

theorem decode_formatXY_subnReg (x y : Reg) : decode (formatXY 0x8#4 x y 0x7#4) = .ok (.subnReg x y) := by
  simp [decode_formatXY_family8, decodeFamily8, nibble4_formatXY, fieldX_formatXY, fieldY_formatXY]

theorem decode_formatXY_shl (x y : Reg) : decode (formatXY 0x8#4 x y 0xE#4) = .ok (.shl x y) := by
  simp [decode_formatXY_family8, decodeFamily8, nibble4_formatXY, fieldX_formatXY, fieldY_formatXY]

theorem decode_formatXKK_rnd (x : Reg) (kk : Byte) : decode (formatXKK 0xC#4 x kk) = .ok (.rnd x kk) := by
  simp [decode, family_formatXKK, fieldX_formatXKK, fieldKK_formatXKK]

theorem decode_formatXY_drw (x y : Reg) (n : BitVec 4) :
    decode (formatXY 0xD#4 x y n) = .ok (.drw x y n.toNat) := by
  simp [decode, family_formatXY, fieldX_formatXY, fieldY_formatXY, fieldN, nibble4_formatXY]

/-- Family E goes by the low byte alone (R84). -/
theorem decode_formatXKK_familyE (x : Reg) (kk : Byte) :
    decode (formatXKK 0xE#4 x kk) = decodeFamilyE (formatXKK 0xE#4 x kk) := by
  simp [decode, family_formatXKK]

theorem decode_formatXKK_skp (x : Reg) : decode (formatXKK 0xE#4 x 0x9E#8) = .ok (.skp x) := by
  simp [decode_formatXKK_familyE, decodeFamilyE, fieldX_formatXKK, fieldKK_formatXKK]

theorem decode_formatXKK_sknp (x : Reg) : decode (formatXKK 0xE#4 x 0xA1#8) = .ok (.sknp x) := by
  simp [decode_formatXKK_familyE, decodeFamilyE, fieldX_formatXKK, fieldKK_formatXKK]

theorem decode_formatXKK_addI (x : Reg) : decode (formatXKK 0xF#4 x 0x1E#8) = .ok (.addI x) := by
  simp [decode_formatXKK_familyF, decodeFamilyF, fieldX_formatXKK, fieldKK_formatXKK]

theorem decode_formatXKK_ldF (x : Reg) : decode (formatXKK 0xF#4 x 0x29#8) = .ok (.ldF x) := by
  simp [decode_formatXKK_familyF, decodeFamilyF, fieldX_formatXKK, fieldKK_formatXKK]

theorem decode_formatXKK_ldB (x : Reg) : decode (formatXKK 0xF#4 x 0x33#8) = .ok (.ldB x) := by
  simp [decode_formatXKK_familyF, decodeFamilyF, fieldX_formatXKK, fieldKK_formatXKK]

theorem decode_formatXKK_store (x : Reg) : decode (formatXKK 0xF#4 x 0x55#8) = .ok (.store x) := by
  simp [decode_formatXKK_familyF, decodeFamilyF, fieldX_formatXKK, fieldKK_formatXKK]

theorem decode_formatXKK_load (x : Reg) : decode (formatXKK 0xF#4 x 0x65#8) = .ok (.load x) := by
  simp [decode_formatXKK_familyF, decodeFamilyF, fieldX_formatXKK, fieldKK_formatXKK]

/-! ## Decoding undoes encoding -/

/-- The 4-bit field of a row count that fits is that count (R82). -/
theorem drw_field_toNat {x y : Reg} {n : Nat} (h : (Instr.drw x y n).WellFormed = true) :
    (BitVec.ofNat 4 n).toNat = n := by
  have hn : n < 16 := of_decide_eq_true h
  rw [BitVec.toNat_ofNat]
  omega

theorem decode_encode {i : Instr} (h : i.WellFormed = true) : decode (encode i) = .ok i := by
  cases i with
  | cls => exact decode_cls
  | ret => exact decode_ret
  | jp nnn => exact decode_formatNNN_jp nnn
  | call nnn => exact decode_formatNNN_call nnn
  | seByte x kk => exact decode_formatXKK_seByte x kk
  | sneByte x kk => exact decode_formatXKK_sneByte x kk
  | seReg x y => exact decode_formatXY_seReg x y
  | sneReg x y => exact decode_formatXY_sneReg x y
  | ldByte x kk => exact decode_formatXKK_ldByte x kk
  | addByte x kk => exact decode_formatXKK_addByte x kk
  | ldReg x y => exact decode_formatXY_ldReg x y
  | orReg x y => exact decode_formatXY_orReg x y
  | andReg x y => exact decode_formatXY_andReg x y
  | xorReg x y => exact decode_formatXY_xorReg x y
  | addReg x y => exact decode_formatXY_addReg x y
  | subReg x y => exact decode_formatXY_subReg x y
  | shr x y => exact decode_formatXY_shr x y
  | subnReg x y => exact decode_formatXY_subnReg x y
  | shl x y => exact decode_formatXY_shl x y
  | ldI nnn => exact decode_formatNNN_ldI nnn
  | jpV0 nnn => exact decode_formatNNN_jpV0 nnn
  | rnd x kk => exact decode_formatXKK_rnd x kk
  | drw x y n => rw [encode, decode_formatXY_drw, drw_field_toNat h]
  | skp x => exact decode_formatXKK_skp x
  | sknp x => exact decode_formatXKK_sknp x
  | ldVxDT x => exact decode_formatXKK_ldVxDT x
  | ldVxK x => exact decode_formatXKK_ldVxK x
  | ldDTVx x => exact decode_formatXKK_ldDTVx x
  | ldSTVx x => exact decode_formatXKK_ldSTVx x
  | addI x => exact decode_formatXKK_addI x
  | ldF x => exact decode_formatXKK_ldF x
  | ldB x => exact decode_formatXKK_ldB x
  | store x => exact decode_formatXKK_store x
  | load x => exact decode_formatXKK_load x

theorem decodeBytes_encodeBytes_append {i : Instr} (h : i.WellFormed = true) (rest : List Byte) :
    decodeBytes (encodeBytes i ++ rest) = .ok (i, rest) := by
  simp only [encodeBytes, List.cons_append, List.nil_append, decodeBytes, wordOfBytes_bytes, decode_encode h]

/-- Settles O1: the decoder answers on each format what its fields say, and the two bytes make up the word again. -/
theorem decodeUndoesEncode : Obligations.DecodeUndoesEncode := by
  unfold Obligations.DecodeUndoesEncode
  exact fun i h => ⟨decode_encode h, decodeBytes_encodeBytes_append h⟩

/-! ## A word is made of its fields (R81) -/

theorem formatNNN_of_family {w : Word} {f : BitVec 4} (h : family w = f) : formatNNN f (fieldNNN w) = w := by
  subst h
  apply BitVec.eq_of_toNat_eq
  have := w.isLt
  rw [toNat_formatNNN]
  simp only [family, fieldNNN, BitVec.extractLsb'_toNat, Nat.shiftRight_eq_div_pow]
  omega

theorem fieldX_val (w : Word) : (fieldX w).val = w.toNat / 256 % 16 := by
  show (w.extractLsb' 8 4).toNat = _
  rw [BitVec.extractLsb'_toNat, Nat.shiftRight_eq_div_pow]

theorem fieldY_val (w : Word) : (fieldY w).val = w.toNat / 16 % 16 := by
  show (w.extractLsb' 4 4).toNat = _
  rw [BitVec.extractLsb'_toNat, Nat.shiftRight_eq_div_pow]

theorem formatXKK_of_family {w : Word} {f : BitVec 4} (h : family w = f) :
    formatXKK f (fieldX w) (fieldKK w) = w := by
  subst h
  apply BitVec.eq_of_toNat_eq
  have := w.isLt
  rw [toNat_formatXKK, fieldX_val]
  simp only [family, fieldKK, BitVec.extractLsb'_toNat, Nat.shiftRight_eq_div_pow]
  omega

theorem formatXY_of_family {w : Word} {f n : BitVec 4} (hf : family w = f) (hn : nibble4 w = n) :
    formatXY f (fieldX w) (fieldY w) n = w := by
  subst hf hn
  apply BitVec.eq_of_toNat_eq
  have := w.isLt
  rw [toNat_formatXY, fieldX_val, fieldY_val]
  simp only [family, nibble4, BitVec.extractLsb'_toNat, Nat.shiftRight_eq_div_pow]
  omega

theorem formatXKK_of_fieldKK {w : Word} {f : BitVec 4} {kk : Byte} (hf : family w = f) (hk : fieldKK w = kk) :
    formatXKK f (fieldX w) kk = w := by
  subst hk
  exact formatXKK_of_family hf

/-! ## Encoding undoes decoding -/

theorem encode_of_decodeFamily0 {w : Word} {i : Instr} (h : decodeFamily0 w = .ok i) : encode i = w := by
  unfold decodeFamily0 at h
  split at h
  next hw => cases h; exact hw.symm
  next =>
    split at h
    next hw => cases h; exact hw.symm
    next => cases h

theorem encode_of_decodeFamily8 {w : Word} {i : Instr} (hf : family w = 0x8#4) (h : decodeFamily8 w = .ok i) :
    encode i = w := by
  unfold decodeFamily8 at h
  split at h <;> cases h <;> exact formatXY_of_family hf ‹_›

theorem encode_of_decodeFamilyE {w : Word} {i : Instr} (hf : family w = 0xE#4) (h : decodeFamilyE w = .ok i) :
    encode i = w := by
  unfold decodeFamilyE at h
  split at h <;> cases h <;> exact formatXKK_of_fieldKK hf ‹_›

theorem encode_of_decodeFamilyF {w : Word} {i : Instr} (hf : family w = 0xF#4) (h : decodeFamilyF w = .ok i) :
    encode i = w := by
  unfold decodeFamilyF at h
  split at h <;> cases h <;> exact formatXKK_of_fieldKK hf ‹_›

theorem fieldN_ofNat (w : Word) : BitVec.ofNat 4 (fieldN w) = nibble4 w := by
  simp [fieldN]

/-- No bit of a recognised word is dropped: each format is rebuilt from the fields the decoder read. -/
theorem encode_of_decode {w : Word} {i : Instr} (h : decode w = .ok i) : encode i = w := by
  unfold decode at h
  split at h
  next => exact encode_of_decodeFamily0 h
  next hf => cases h; exact formatNNN_of_family hf
  next hf => cases h; exact formatNNN_of_family hf
  next hf => cases h; exact formatXKK_of_family hf
  next hf => cases h; exact formatXKK_of_family hf
  next hf =>
    split at h
    next hn => cases h; exact formatXY_of_family hf hn
    next => cases h
  next hf => cases h; exact formatXKK_of_family hf
  next hf => cases h; exact formatXKK_of_family hf
  next hf => exact encode_of_decodeFamily8 hf h
  next hf =>
    split at h
    next hn => cases h; exact formatXY_of_family hf hn
    next => cases h
  next hf => cases h; exact formatNNN_of_family hf
  next hf => cases h; exact formatNNN_of_family hf
  next hf => cases h; exact formatXKK_of_family hf
  next hf => cases h; exact formatXY_of_family hf (fieldN_ofNat w).symm
  next hf => exact encode_of_decodeFamilyE hf h
  next hf => exact encode_of_decodeFamilyF hf h
  next => cases h

/-- A decoded row count is a 4-bit field, and no other field has a bound of its own (R82). -/
theorem wellFormed_of_decode {w : Word} {i : Instr} (h : decode w = .ok i) : i.WellFormed = true := by
  cases i with
  | drw x y n =>
    have hw := encode_of_decode h
    rw [encode] at hw
    rw [← hw, decode_formatXY_drw] at h
    have hn : (BitVec.ofNat 4 n).toNat = n := by simpa using h
    exact decide_eq_true (hn ▸ (BitVec.ofNat 4 n).isLt)
  | _ => rfl

/-- Settles O2: every format is its fields put together, and a decoded row count is a 4-bit field. -/
theorem encodeUndoesDecode : Obligations.EncodeUndoesDecode := by
  unfold Obligations.EncodeUndoesDecode
  exact fun w i h => ⟨encode_of_decode h, wellFormed_of_decode h⟩

/-! ## The opcode table -/

/-- The word of every instruction matches the instruction's row (R86). -/
theorem tableRow_of_instr (i : Instr) : Laws.TableRow.Statement i := by
  cases i with
  | cls => exact Laws.TableRow.cls
  | ret => exact Laws.TableRow.ret
  | jp nnn => exact Laws.TableRow.jp nnn
  | call nnn => exact Laws.TableRow.call nnn
  | seByte x kk => exact Laws.TableRow.seByte x kk
  | sneByte x kk => exact Laws.TableRow.sneByte x kk
  | seReg x y => exact Laws.TableRow.seReg x y
  | sneReg x y => exact Laws.TableRow.sneReg x y
  | ldByte x kk => exact Laws.TableRow.ldByte x kk
  | addByte x kk => exact Laws.TableRow.addByte x kk
  | ldReg x y => exact Laws.TableRow.ldReg x y
  | orReg x y => exact Laws.TableRow.orReg x y
  | andReg x y => exact Laws.TableRow.andReg x y
  | xorReg x y => exact Laws.TableRow.xorReg x y
  | addReg x y => exact Laws.TableRow.addReg x y
  | subReg x y => exact Laws.TableRow.subReg x y
  | shr x y => exact Laws.TableRow.shr x y
  | subnReg x y => exact Laws.TableRow.subnReg x y
  | shl x y => exact Laws.TableRow.shl x y
  | ldI nnn => exact Laws.TableRow.ldI nnn
  | jpV0 nnn => exact Laws.TableRow.jpV0 nnn
  | rnd x kk => exact Laws.TableRow.rnd x kk
  | drw x y n => exact Laws.TableRow.drw x y n
  | skp x => exact Laws.TableRow.skp x
  | sknp x => exact Laws.TableRow.sknp x
  | ldVxDT x => exact Laws.TableRow.ldVxDT x
  | ldVxK x => exact Laws.TableRow.ldVxK x
  | ldDTVx x => exact Laws.TableRow.ldDTVx x
  | ldSTVx x => exact Laws.TableRow.ldSTVx x
  | addI x => exact Laws.TableRow.addI x
  | ldF x => exact Laws.TableRow.ldF x
  | ldB x => exact Laws.TableRow.ldB x
  | store x => exact Laws.TableRow.store x
  | load x => exact Laws.TableRow.load x

/-- The rows leave no room for two: where two patterns agree on the digits both rows fix, the rows are one. -/
theorem opcodeTable_patterns_disjoint :
    ∀ r₁ ∈ opcodeTable, ∀ r₂ ∈ opcodeTable,
      r₁.pattern &&& r₂.mask = r₂.pattern &&& r₁.mask → r₁ = r₂ := by
  decide

/-- Settles O4: the digits that both masks keep of the word are those of both patterns. -/
theorem tableRowsDisjoint : Obligations.TableRowsDisjoint := by
  unfold Obligations.TableRowsDisjoint
  intro w r₁ r₂ h₁ h₂ hm₁ hm₂
  refine opcodeTable_patterns_disjoint r₁ h₁ r₂ h₂ ?_
  have hp₁ : w &&& r₁.mask = r₁.pattern := of_decide_eq_true hm₁
  have hp₂ : w &&& r₂.mask = r₂.pattern := of_decide_eq_true hm₂
  rw [← hp₁, ← hp₂]
  rw [BitVec.and_assoc, BitVec.and_assoc, BitVec.and_comm r₁.mask]

/-! ## The unrecognised words, family by family (R88) -/

theorem decodeFamily0_eq_error (w : Word) :
    decodeFamily0 w = .error (.unrecognised w) ↔ w ≠ 0x00E0#16 ∧ w ≠ 0x00EE#16 := by
  unfold decodeFamily0
  split
  next h => simp [h]
  next h =>
    split
    next h' => simp [h']
    next h' => simp [h, h']

theorem decodeFamily8_eq_error (w : Word) :
    decodeFamily8 w = .error (.unrecognised w) ↔
      nibble4 w ∈ [0x8#4, 0x9#4, 0xA#4, 0xB#4, 0xC#4, 0xD#4, 0xF#4] := by
  have hsel : ∀ n : BitVec 4, n ∈ [0x8#4, 0x9#4, 0xA#4, 0xB#4, 0xC#4, 0xD#4, 0xF#4] ↔
      n ∉ [0x0#4, 0x1#4, 0x2#4, 0x3#4, 0x4#4, 0x5#4, 0x6#4, 0x7#4, 0xE#4] := by decide
  rw [hsel]
  unfold decodeFamily8
  split <;> simp_all

theorem decodeFamilyE_eq_error (w : Word) :
    decodeFamilyE w = .error (.unrecognised w) ↔ fieldKK w ∉ [0x9E#8, 0xA1#8] := by
  unfold decodeFamilyE
  split <;> simp_all

theorem decodeFamilyF_eq_error (w : Word) :
    decodeFamilyF w = .error (.unrecognised w) ↔
      fieldKK w ∉ [0x07#8, 0x0A#8, 0x15#8, 0x18#8, 0x1E#8, 0x29#8, 0x33#8, 0x55#8, 0x65#8] := by
  unfold decodeFamilyF
  split <;> simp_all

theorem decode_eq_error_iff (w : Word) :
    decode w = .error (.unrecognised w) ↔
      (family w = 0x0#4 ∧ w ≠ 0x00E0#16 ∧ w ≠ 0x00EE#16) ∨
      (family w = 0x5#4 ∧ nibble4 w ≠ 0x0#4) ∨ (family w = 0x9#4 ∧ nibble4 w ≠ 0x0#4) ∨
      (family w = 0x8#4 ∧ nibble4 w ∈ [0x8#4, 0x9#4, 0xA#4, 0xB#4, 0xC#4, 0xD#4, 0xF#4]) ∨
      (family w = 0xE#4 ∧ fieldKK w ∉ [0x9E#8, 0xA1#8]) ∨
      (family w = 0xF#4 ∧
        fieldKK w ∉ [0x07#8, 0x0A#8, 0x15#8, 0x18#8, 0x1E#8, 0x29#8, 0x33#8, 0x55#8, 0x65#8]) := by
  unfold decode
  split
  case h_1 hf => simp only [hf, decodeFamily0_eq_error]; simp
  case h_9 hf => simp only [hf, decodeFamily8_eq_error]; simp
  case h_15 hf => simp only [hf, decodeFamilyE_eq_error]; simp
  case h_16 hf => simp only [hf, decodeFamilyF_eq_error]; simp
  case h_6 hf => split <;> simp [*]
  case h_10 hf => split <;> simp [*]
  case h_17 =>
    exfalso
    generalize family w = f at *
    revert f
    decide
  all_goals next hf => simp [hf]

/-! ## The rows that an unrecognised word would match -/

theorem family_and (v w : Word) : family (v &&& w) = family v &&& family w := BitVec.extractLsb'_and

theorem nibble4_and (v w : Word) : nibble4 (v &&& w) = nibble4 v &&& nibble4 w := BitVec.extractLsb'_and

theorem fieldKK_and (v w : Word) : fieldKK (v &&& w) = fieldKK v &&& fieldKK w := BitVec.extractLsb'_and

section
variable {r : OpcodeRow} {w : Word}

/-- A row that fixes the first digit is matched by words of its own family only. -/
theorem OpcodeRow.family_of_matches (h : r.matches w = true) (hm : family r.mask = 0xF#4) :
    family w = family r.pattern := by
  have hp : w &&& r.mask = r.pattern := of_decide_eq_true h
  rw [← hp, family_and, hm]
  exact BitVec.and_allOnes.symm

theorem OpcodeRow.nibble4_of_matches (h : r.matches w = true) (hm : nibble4 r.mask = 0xF#4) :
    nibble4 w = nibble4 r.pattern := by
  have hp : w &&& r.mask = r.pattern := of_decide_eq_true h
  rw [← hp, nibble4_and, hm]
  exact BitVec.and_allOnes.symm

theorem OpcodeRow.fieldKK_of_matches (h : r.matches w = true) (hm : fieldKK r.mask = 0xFF#8) :
    fieldKK w = fieldKK r.pattern := by
  have hp : w &&& r.mask = r.pattern := of_decide_eq_true h
  rw [← hp, fieldKK_and, hm]
  exact BitVec.and_allOnes.symm

theorem OpcodeRow.eq_of_matches (h : r.matches w = true) (hm : r.mask = 0xFFFF#16) : w = r.pattern := by
  have hp : w &&& r.mask = r.pattern := of_decide_eq_true h
  rw [← hp, hm]
  exact BitVec.and_allOnes.symm

end

/-! What the table says of its rows, family by family: the digits each row fixes and their values (R84, R86). -/

theorem opcodeTable_family : ∀ r ∈ opcodeTable, family r.mask = 0xF#4 := by decide

theorem opcodeTable_family0 : ∀ r ∈ opcodeTable, family r.pattern = 0x0#4 →
    r.mask = 0xFFFF#16 ∧ r.pattern ∈ [0x00E0#16, 0x00EE#16] := by decide

theorem opcodeTable_family5_9 : ∀ r ∈ opcodeTable, family r.pattern ∈ [0x5#4, 0x9#4] →
    nibble4 r.mask = 0xF#4 ∧ nibble4 r.pattern = 0x0#4 := by decide

theorem opcodeTable_family8 : ∀ r ∈ opcodeTable, family r.pattern = 0x8#4 →
    nibble4 r.mask = 0xF#4 ∧ nibble4 r.pattern ∉ [0x8#4, 0x9#4, 0xA#4, 0xB#4, 0xC#4, 0xD#4, 0xF#4] := by decide

theorem opcodeTable_familyE : ∀ r ∈ opcodeTable, family r.pattern = 0xE#4 →
    fieldKK r.mask = 0xFF#8 ∧ fieldKK r.pattern ∈ [0x9E#8, 0xA1#8] := by decide

theorem opcodeTable_familyF : ∀ r ∈ opcodeTable, family r.pattern = 0xF#4 →
    fieldKK r.mask = 0xFF#8 ∧
      fieldKK r.pattern ∈ [0x07#8, 0x0A#8, 0x15#8, 0x18#8, 0x1E#8, 0x29#8, 0x33#8, 0x55#8, 0x65#8] := by decide

/-- No unrecognised word matches a row: in each family the row would fix the digits that keep the word out. -/
theorem decode_ne_error_of_matches {r : OpcodeRow} {w : Word} (hr : r ∈ opcodeTable) (h : r.matches w = true) :
    decode w ≠ .error (.unrecognised w) := by
  have hfam := r.family_of_matches h (opcodeTable_family r hr)
  rw [Ne, decode_eq_error_iff, hfam]
  rintro (⟨hf, hcls, hret⟩ | ⟨hf, hn⟩ | ⟨hf, hn⟩ | ⟨hf, hn⟩ | ⟨hf, hk⟩ | ⟨hf, hk⟩)
  · obtain ⟨hmask, hpat⟩ := opcodeTable_family0 r hr hf
    rw [← r.eq_of_matches h hmask] at hpat
    simp [hcls, hret] at hpat
  · obtain ⟨hmask, hpat⟩ := opcodeTable_family5_9 r hr (by simp [hf])
    exact hn (r.nibble4_of_matches h hmask ▸ hpat)
  · obtain ⟨hmask, hpat⟩ := opcodeTable_family5_9 r hr (by simp [hf])
    exact hn (r.nibble4_of_matches h hmask ▸ hpat)
  · obtain ⟨hmask, hpat⟩ := opcodeTable_family8 r hr hf
    exact hpat (r.nibble4_of_matches h hmask ▸ hn)
  · obtain ⟨hmask, hpat⟩ := opcodeTable_familyE r hr hf
    exact hk (r.fieldKK_of_matches h hmask ▸ hpat)
  · obtain ⟨hmask, hpat⟩ := opcodeTable_familyF r hr hf
    exact hk (r.fieldKK_of_matches h hmask ▸ hpat)

/-! The decoder rejects a word by its own name, in each family. -/

theorem eq_unrecognised_of_decodeFamily0 {w : Word} {e : DecodeError} (h : decodeFamily0 w = .error e) :
    e = .unrecognised w := by
  unfold decodeFamily0 at h
  split at h
  · cases h
  · split at h <;> cases h
    rfl

theorem eq_unrecognised_of_decodeFamily8 {w : Word} {e : DecodeError} (h : decodeFamily8 w = .error e) :
    e = .unrecognised w := by
  unfold decodeFamily8 at h
  split at h <;> cases h
  rfl

theorem eq_unrecognised_of_decodeFamilyE {w : Word} {e : DecodeError} (h : decodeFamilyE w = .error e) :
    e = .unrecognised w := by
  unfold decodeFamilyE at h
  split at h <;> cases h
  rfl

theorem eq_unrecognised_of_decodeFamilyF {w : Word} {e : DecodeError} (h : decodeFamilyF w = .error e) :
    e = .unrecognised w := by
  unfold decodeFamilyF at h
  split at h <;> cases h
  rfl

theorem eq_unrecognised_of_decode {w : Word} {e : DecodeError} (h : decode w = .error e) : e = .unrecognised w := by
  unfold decode at h
  split at h
  case h_1 => exact eq_unrecognised_of_decodeFamily0 h
  case h_6 =>
    split at h <;> cases h
    rfl
  case h_9 => exact eq_unrecognised_of_decodeFamily8 h
  case h_10 =>
    split at h <;> cases h
    rfl
  case h_15 => exact eq_unrecognised_of_decodeFamilyE h
  case h_16 => exact eq_unrecognised_of_decodeFamilyF h
  case h_17 =>
    cases h
    rfl
  all_goals cases h

theorem row_of_decode {w : Word} {i : Instr} (h : decode w = .ok i) :
    ∃ r, opcodeTable[i.rowIndex]? = some r ∧ r.matches w = true := by
  obtain ⟨r, hr, hm⟩ := tableRow_of_instr i
  exact ⟨r, hr, encode_of_decode h ▸ hm⟩

/-- Settles O3: a recognised word is the word of its instruction, which matches the instruction's row; an unrecognised
one would match a row that fixes the digits it lacks. -/
theorem decodeFollowsTheTable : Obligations.DecodeFollowsTheTable := by
  unfold Obligations.DecodeFollowsTheTable
  refine fun w => ⟨fun i => row_of_decode, ?noRow, ?unrecognised⟩
  case noRow =>
    intro h r hr
    exact Bool.eq_false_iff.2 fun hm => decode_ne_error_of_matches hr hm h
  case unrecognised =>
    intro hnone
    cases hd : decode w with
    | error e => rw [eq_unrecognised_of_decode hd]
    | ok i =>
      obtain ⟨r, hr, hm⟩ := row_of_decode hd
      exact absurd hm (Bool.eq_false_iff.1 (hnone r (List.mem_of_getElem? hr)))

/-- Settles O5, one word at a time: the decoder computes on each. -/
theorem sampleWordsDecode : Obligations.SampleWordsDecode := by
  unfold Obligations.SampleWordsDecode
  decide

end Sys2Proof
end

section
/-!
PROOFS. The handlers with a flag, a fault or an access through `I` (spec/41 to spec/45): per handler one equation for
each way it can end, the values it leaves and its frame.
-/
namespace Sys2Proof.Machine

/-! ## Return and `Bnnn` (R131, R138) -/

theorem exec_ret (s : State) : exec .ret s = execRet s := rfl

/-- A return with an address on the stack: the top slot goes to `pc` and `sp` counts down (R131). -/
theorem exec_ret_of_pos {s : State} (h : 0 < s.sp.val) :
    exec .ret s = .next (State.setPc { s with sp := ⟨s.sp.val - 1, by omega⟩ } (s.stack[s.sp.val - 1]'(by omega))) := by
  rw [exec_ret, execRet, State.pop?_spec s h]

/-- A return with nothing on the stack (R131). -/
theorem exec_ret_of_empty {s : State} (h : s.sp.val = 0) :
    exec .ret s = .fault (.stackUnderflow ⟨s.instrAddr, some s.opcode, 0⟩) := by
  rw [exec_ret, execRet, s.pop?_eq_none.2 h, raise]

/-- A call leaves a state from which a return comes back to the address after the call. -/
theorem exec_ret_after_call {s t : State} {nnn : Imm12} (h : s.sp.val < 16) (ht : exec (.call nnn) s = .next t) :
    ∃ u, exec .ret t = .next u ∧ u.pc = s.pc ∧ u.sp = s.sp := by
  rw [exec_call_of_lt h] at ht
  cases ht
  refine ⟨_, exec_ret_of_pos (Nat.succ_pos _), ?_, rfl⟩
  exact Vector.getElem_set_self h

/-- Settles O17, by the two cases of the pop: an address is on the stack, or none. -/
theorem retPopsProgramCounter : Obligations.RetPopsProgramCounter := by
  unfold Obligations.RetPopsProgramCounter
  refine ⟨decode_ret, fun s => ⟨?pops, fun h => ⟨_, exec_ret_of_empty h⟩, ?afterCall⟩⟩
  case pops =>
    intro h
    refine ⟨_, exec_ret_of_pos h, rfl, rfl, rfl, ?frame⟩
    case frame => simp [State.SameBut]
  case afterCall =>
    intro nnn h
    obtain ⟨u, hu, hpc, hsp⟩ := exec_ret_after_call h (exec_call_of_lt h nnn)
    exact ⟨_, u, exec_call_of_lt h nnn, hu, hpc, hsp⟩

theorem wordOfByte_toNat (b : Byte) : (wordOfByte b).toNat = b.toNat := by
  have := b.isLt
  rw [wordOfByte, BitVec.toNat_setWidth]
  omega

/-- The target of `Bnnn` is at most 0x10FE, so the 16-bit sum does not wrap. -/
theorem jpV0_target_toNat (b : Byte) (nnn : Imm12) :
    (wordOfByte b + addrOfImm nnn).toNat = b.toNat + nnn.toNat := by
  have := b.isLt
  have := nnn.isLt
  rw [BitVec.toNat_add, wordOfByte_toNat, addrOfImm_toNat]
  omega

theorem exec_jpV0 (nnn : Imm12) (s : State) :
    exec (.jpV0 nnn) s = .next (s.setPc (wordOfByte s.V[(0 : Reg)] + addrOfImm nnn)) := rfl

/-- Settles O22: the handler is one write of `pc`, with a sum that does not wrap. -/
theorem jpV0AddsOffset : Obligations.JpV0AddsOffset := by
  unfold Obligations.JpV0AddsOffset
  intro nnn
  exact ⟨decode_formatNNN_jpV0 nnn, fun s => ⟨_, exec_jpV0 nnn s, jpV0_target_toNat _ nnn, s.sameBut_setPc _⟩⟩

/-! ## A result and then the flag (R157, R158, R160, R163) -/

theorem State.setVThenVF_VF (s : State) (x : Reg) (v f : Byte) : (s.setVThenVF x v f).V[regVF] = f := by
  rw [State.setVThenVF_V_get, if_pos rfl]

theorem State.setVThenVF_V_self (s : State) {x : Reg} (hx : x ≠ regVF) (v f : Byte) :
    (s.setVThenVF x v f).V[x] = v := by
  rw [State.setVThenVF_V_get, if_neg hx, if_pos rfl]

theorem State.otherRegs_setVThenVF (s : State) (x : Reg) (v f : Byte) :
    State.OtherRegs [x, regVF] s (s.setVThenVF x v f) := by
  intro r hr
  have hx : r ≠ x := by rintro rfl; simp at hr
  have hf : r ≠ regVF := by rintro rfl; simp at hr
  rw [State.setVThenVF_V_get, if_neg hf, if_neg hx]

theorem State.sameBut_setVThenVF (s : State) (x : Reg) (v f : Byte) :
    State.SameBut { V := true } s (s.setVThenVF x v f) := by
  simp [State.SameBut]

theorem flagByte_decide (p : Prop) [Decidable p] : flagByte (decide p) = if p then 1 else 0 := by
  simp [flagByte]

/-- The difference of two bytes wraps (R162). -/
theorem diffByte_toNat (a b : Byte) : ((diffByte a b).toNat : Int) = (a.toNat - b.toNat : Int) % 256 := by
  rw [diffByte, BitVec.toNat_ofInt]
  omega

theorem exec_addReg (x y : Reg) (s : State) :
    exec (.addReg x y) s = .next (s.setVThenVF x (sumByte s.V[x] s.V[y]) (carryFlag s.V[x] s.V[y])) := rfl

theorem exec_subReg (x y : Reg) (s : State) :
    exec (.subReg x y) s = .next (s.setVThenVF x (diffByte s.V[x] s.V[y]) (greaterFlag s.V[x] s.V[y])) := rfl

theorem exec_subnReg (x y : Reg) (s : State) :
    exec (.subnReg x y) s = .next (s.setVThenVF x (diffByte s.V[y] s.V[x]) (greaterFlag s.V[y] s.V[x])) := rfl

/-- Settles O27: the handler writes the sum modulo 256 and then the carry. -/
theorem addRegSetsCarry : Obligations.AddRegSetsCarry := by
  unfold Obligations.AddRegSetsCarry
  refine fun x y => ⟨decode_formatXY_addReg x y, fun s => ?_⟩
  refine ⟨_, exec_addReg x y s, fun hx => ?sum, ?carry, s.otherRegs_setVThenVF x _ _, s.sameBut_setVThenVF x _ _⟩
  case sum => rw [s.setVThenVF_V_self hx, sumByte_toNat]
  case carry => rw [State.setVThenVF_VF, carryFlag, flagByte_decide]

/-- Settles O28: both handlers write the difference modulo 256 and then the strictly-greater flag. -/
theorem subtractsSetGreaterFlag : Obligations.SubtractsSetGreaterFlag := by
  unfold Obligations.SubtractsSetGreaterFlag
  refine fun x y => ⟨decode_formatXY_subReg x y, decode_formatXY_subnReg x y, fun s => ⟨?sub, ?subn⟩⟩
  case sub =>
    refine ⟨_, exec_subReg x y s, fun hx => ?_, ?_, s.otherRegs_setVThenVF x _ _, s.sameBut_setVThenVF x _ _⟩
    · rw [s.setVThenVF_V_self hx, diffByte_toNat]
    · rw [State.setVThenVF_VF, greaterFlag, flagByte_decide]
  case subn =>
    refine ⟨_, exec_subnReg x y s, fun hx => ?_, ?_, s.otherRegs_setVThenVF x _ _, s.sameBut_setVThenVF x _ _⟩
    · rw [s.setVThenVF_V_self hx, diffByte_toNat]
    · rw [State.setVThenVF_VF, greaterFlag, flagByte_decide]

/-! ## The lost bit and then the result (R159, R161, D11) -/

/-- The flag first, then `V[x]` read again and changed: the order of the shifts. -/
def State.setVFThenMap (s : State) (flag : Byte) (x : Reg) (g : Byte → Byte) : State :=
  (s.setVF flag).setV x (g (s.setVF flag).V[x])

theorem State.setVFThenMap_V_self (s : State) (flag : Byte) {x : Reg} (hx : x ≠ regVF) (g : Byte → Byte) :
    (s.setVFThenMap flag x g).V[x] = g s.V[x] := by
  rw [State.setVFThenMap, State.setV_V_self, State.setVF_V_get, if_neg hx]

theorem State.setVFThenMap_VF (s : State) (flag : Byte) {x : Reg} (hx : x ≠ regVF) (g : Byte → Byte) :
    (s.setVFThenMap flag x g).V[regVF] = flag := by
  rw [State.setVFThenMap, State.setV_V_get, if_neg hx.symm, State.setVF_V_get, if_pos rfl]

/-- With VF itself as the operand the change applies to the flag. -/
theorem State.setVFThenMap_VF_self (s : State) (flag : Byte) (g : Byte → Byte) :
    (s.setVFThenMap flag regVF g).V[regVF] = g flag := by
  rw [State.setVFThenMap, State.setV_V_self, State.setVF_V_get, if_pos rfl]

theorem State.otherRegs_setVFThenMap (s : State) (flag : Byte) (x : Reg) (g : Byte → Byte) :
    State.OtherRegs [x, regVF] s (s.setVFThenMap flag x g) := by
  intro r hr
  have hx : r ≠ x := by rintro rfl; simp at hr
  have hf : r ≠ regVF := by rintro rfl; simp at hr
  rw [State.setVFThenMap, State.setV_V_get, if_neg hx, State.setVF_V_get, if_neg hf]

theorem State.sameBut_setVFThenMap (s : State) (flag : Byte) (x : Reg) (g : Byte → Byte) :
    State.SameBut { V := true } s (s.setVFThenMap flag x g) := by
  simp [State.SameBut, State.setVFThenMap]

theorem lowBit_toNat (a : Byte) : (lowBit a).toNat = a.toNat % 2 := by
  rw [lowBit, BitVec.toNat_and]
  exact Nat.and_one_is_mod _

theorem highBit_toNat (a : Byte) : (highBit a).toNat = a.toNat / 128 := by
  revert a
  decide

theorem shr_one_toNat (a : Byte) : (a >>> 1).toNat = a.toNat / 2 := by
  rw [BitVec.toNat_ushiftRight, Nat.shiftRight_eq_div_pow]

theorem shl_one_toNat (a : Byte) : (a <<< 1).toNat = 2 * a.toNat % 256 := by
  rw [BitVec.toNat_shiftLeft, Nat.shiftLeft_eq]
  omega

theorem exec_shr (x y : Reg) (s : State) :
    exec (.shr x y) s = .next (s.setVFThenMap (lowBit s.V[x]) x (· >>> 1)) := rfl

theorem exec_shl (x y : Reg) (s : State) :
    exec (.shl x y) s = .next (s.setVFThenMap (highBit s.V[x]) x (· <<< 1)) := rfl

theorem lowBit_shr_one (a : Byte) : lowBit a >>> 1 = 0 := by
  apply BitVec.eq_of_toNat_eq
  rw [shr_one_toNat, lowBit_toNat]
  show _ = 0
  omega

theorem highBit_shl_one_toNat (a : Byte) : (highBit a <<< 1).toNat = 2 * (a.toNat / 128) := by
  have := a.isLt
  rw [shl_one_toNat, highBit_toNat]
  omega

/-- Settles O29: the lost bit goes to VF, then `V[x]` is read again and shifted, so for `x = F` the lost bit itself is
shifted. -/
theorem shiftsCaptureLostBit : Obligations.ShiftsCaptureLostBit := by
  unfold Obligations.ShiftsCaptureLostBit
  refine fun x y => ⟨decode_formatXY_shr x y, decode_formatXY_shl x y, fun s => ⟨?shr, ?shl⟩⟩
  case shr =>
    refine ⟨_, exec_shr x y s, fun hx => ⟨?_, ?_⟩, ?_, s.otherRegs_setVFThenMap _ x _, s.sameBut_setVFThenMap _ x _⟩
    · rw [s.setVFThenMap_V_self _ hx, shr_one_toNat]
    · rw [s.setVFThenMap_VF _ hx, lowBit_toNat]
    · rintro rfl
      rw [State.setVFThenMap_VF_self, lowBit_shr_one]
  case shl =>
    refine ⟨_, exec_shl x y s, fun hx => ⟨?_, ?_⟩, ?_, s.otherRegs_setVFThenMap _ x _, s.sameBut_setVFThenMap _ x _⟩
    · rw [s.setVFThenMap_V_self _ hx, shl_one_toNat]
    · rw [s.setVFThenMap_VF _ hx, highBit_toNat]
    · rintro rfl
      rw [State.setVFThenMap_VF_self, highBit_shl_one_toNat]

/-! ## The masked input byte and the two sums of `I` (R165, R172, R174) -/

theorem exec_rnd (x : Reg) (kk : Byte) (s : State) : exec (.rnd x kk) s = .next (s.setV x (s.rnd &&& kk)) := rfl

/-- Settles O30: the handler is one write of `V[x]`, and the mask acts on each bit alone. -/
theorem rndMasksInputByte : Obligations.RndMasksInputByte := by
  unfold Obligations.RndMasksInputByte
  refine fun x kk => ⟨decode_formatXKK_rnd x kk, fun s => ?_⟩
  refine ⟨_, exec_rnd x kk s, fun k => ?_, s.otherRegs_setV x _, s.sameBut_setV x _⟩
  rw [State.setV_V_self, BitVec.getLsbD_and]

theorem exec_addI (x : Reg) (s : State) : exec (.addI x) s = .next (s.setI (s.I + wordOfByte s.V[x])) := rfl

/-- Settles O32: the handler is one write of `I`, with a 16-bit sum. -/
theorem addIWrapsAtSixteenBits : Obligations.AddIWrapsAtSixteenBits := by
  unfold Obligations.AddIWrapsAtSixteenBits
  refine fun x => ⟨decode_formatXKK_addI x, fun s => ⟨_, exec_addI x s, ?_, s.sameBut_setI _⟩⟩
  rw [State.setI_I, BitVec.toNat_add, wordOfByte_toNat]

/-- The glyph address of any byte fits in 16 bits (R174). -/
theorem fontAddr_toNat (v : Byte) : (fontAddr v).toNat = 0x050 + 5 * v.toNat := by
  have := v.isLt
  rw [fontAddr, BitVec.toNat_ofNat]
  simp only [Config.fontBase, Config.glyphBytes]
  omega

theorem exec_ldF (x : Reg) (s : State) : exec (.ldF x) s = .next (s.setI (fontAddr s.V[x])) := rfl

/-- Settles O33: the handler is one write of `I`, and the address of the last glyph fits in 16 bits. -/
theorem ldFPointsAtGlyph : Obligations.LdFPointsAtGlyph := by
  unfold Obligations.LdFPointsAtGlyph
  exact fun x => ⟨decode_formatXKK_ldF x, fun s => ⟨_, exec_ldF x s, fontAddr_toNat _, s.sameBut_setI _⟩⟩

/-! ## Accesses through `I` (R56 to R58, R176, R178, R180) -/

/-- The fault of an access through `I` that leaves memory, with the lowest invalid address (R221, R223). -/
def State.boundsFault (s : State) : Fault := .memoryOutOfBounds ⟨s.instrAddr, some s.opcode, max s.I.toNat 0x1000⟩

/-- The state with bytes stored from `I` upward. -/
def State.storeAtI (s : State) (bs : List Byte) : State := s.setMem (s.mem.putBytes (s.ea 0) bs)

theorem State.sameBut_storeAtI (s : State) (bs : List Byte) : State.SameBut { mem := true } s (s.storeAtI bs) := by
  simp [State.SameBut, State.storeAtI]

theorem State.storeAtI_byte (s : State) (bs : List Byte) (a : Nat) :
    (s.storeAtI bs).mem.byte a = if s.ea 0 ≤ a then bs.getD (a - s.ea 0) (s.mem.byte a) else s.mem.byte a :=
  Memory.byte_putBytes_getD ..

theorem State.storeAtI_byte_ea (s : State) {bs : List Byte} {i : Nat} (h : i < bs.length) :
    (s.storeAtI bs).mem.byte (s.ea i) = bs[i] := by
  have hle : s.ea 0 ≤ s.ea i := by simp [State.ea]
  have hsub : s.ea i - s.ea 0 = i := by simp [State.ea]
  rw [State.storeAtI_byte, if_pos hle, hsub, List.getD_eq_getElem _ _ h]

theorem State.storeAtI_byte_of_ne (s : State) {bs : List Byte} {a : Nat} (h : ∀ i, i < bs.length → a ≠ s.ea i) :
    (s.storeAtI bs).mem.byte a = s.mem.byte a := by
  rw [State.storeAtI_byte]
  split
  next hle =>
    have hlen : bs.length ≤ a - s.ea 0 := by
      by_contra hlt
      have ha : a = s.ea (a - s.ea 0) := by simp only [State.ea] at *; omega
      exact h _ (by omega) ha
    exact List.getD_eq_default _ _ hlen
  next => rfl

/-- An access of `n + 1` bytes from `I` is in bounds when its last byte is. -/
theorem State.inBounds_ea_succ (s : State) (n : Nat) : inBounds (s.ea 0) (n + 1) = true ↔ s.ea n ≤ 0xFFF := by
  rw [s.inBounds_ea_iff]
  simp

theorem exec_ldB (x : Reg) (s : State) :
    exec (.ldB x) s = if inBounds (s.ea 0) 3 then .next (s.storeAtI (bcdDigits s.V[x])) else .fault s.boundsFault :=
  rfl

theorem exec_store (x : Reg) (s : State) :
    exec (.store x) s =
      if inBounds (s.ea 0) (x.val + 1) then .next (s.storeAtI (s.regsTo x)) else .fault s.boundsFault := rfl

theorem exec_load (x : Reg) (s : State) :
    exec (.load x) s =
      if inBounds (s.ea 0) (x.val + 1) then .next (s.loadRegs (s.ea 0) (x.val + 1)) else .fault s.boundsFault := rfl

theorem exec_drw_boundsFault (x y : Reg) (n : Nat) (s : State) :
    exec (.drw x y n) s = if inBounds (s.ea 0) n then .next (s.draw x y n) else .fault s.boundsFault := rfl

/-- The digits of `Fx33` fit in a byte each (R176). -/
theorem bcdDigits_toNat (v : Byte) :
    (bcdDigits v).map BitVec.toNat = [v.toNat / 100, v.toNat / 10 % 10, v.toNat % 10] := by
  have := v.isLt
  simp only [bcdDigits, List.map_cons, List.map_nil, BitVec.toNat_ofNat]
  simp only [List.cons.injEq, and_true]
  omega

theorem bcdDigits_getElem_toNat (v : Byte) {i : Nat} (h : i < 3) :
    ((bcdDigits v)[i]'h).toNat = [v.toNat / 100, v.toNat / 10 % 10, v.toNat % 10][i] := by
  simp only [← bcdDigits_toNat, List.getElem_map]
  rfl

/-- Settles O34, by the bounds check: the three digits are stored from `I` upward, or the access faults. -/
theorem ldBStoresDecimalDigits : Obligations.LdBStoresDecimalDigits := by
  unfold Obligations.LdBStoresDecimalDigits
  refine fun x => ⟨decode_formatXKK_ldB x, fun s => ⟨fun h => ?stores, fun h => ?faults⟩⟩
  case stores =>
    have hdigit (i : Nat) (hi : i < 3) :
        ((s.storeAtI (bcdDigits s.V[x])).mem.byte (s.ea i)).toNat =
          [(s.V[x]).toNat / 100, (s.V[x]).toNat / 10 % 10, (s.V[x]).toNat % 10][i] := by
      rw [s.storeAtI_byte_ea hi, bcdDigits_getElem_toNat _ hi]
    refine ⟨s.storeAtI (bcdDigits s.V[x]), ?_, hdigit 0 (by decide), hdigit 1 (by decide), hdigit 2 (by decide), ?_,
      s.sameBut_storeAtI _⟩
    · rw [exec_ldB, if_pos ((s.inBounds_ea_succ 2).2 h)]
    · intro a h0 h1 h2
      refine s.storeAtI_byte_of_ne fun i (hi : i < 3) => ?_
      interval_cases i <;> assumption
  case faults =>
    refine ⟨_, by rw [exec_ldB, if_neg (by rw [s.inBounds_ea_succ]; omega)]; rfl, ?_⟩
    simp only [State.ea] at h
    split <;> simp only <;> omega

/-- Settles O35, by the bounds check: V0 to Vx are stored from `I` upward, or the access faults. -/
theorem storeWritesRegisters : Obligations.StoreWritesRegisters := by
  unfold Obligations.StoreWritesRegisters
  refine fun x => ⟨decode_formatXKK_store x, fun s => ⟨fun h => ?stores, fun h => ?faults⟩⟩
  case stores =>
    refine ⟨s.storeAtI (s.regsTo x), ?_, ?_, ?_, s.sameBut_storeAtI _⟩
    · rw [exec_store, if_pos ((s.inBounds_ea_succ _).2 h)]
    · intro i hi
      have hlt : i.val < (s.regsTo x).length := by rw [State.length_regsTo]; exact Nat.lt_succ_of_le hi
      rw [s.storeAtI_byte_ea hlt, ← s.getD_regsTo x i hi, List.getD_eq_getElem _ _ hlt]
    · intro a ha
      refine s.storeAtI_byte_of_ne fun i hi => ?_
      rw [State.length_regsTo] at hi
      exact ha ⟨i, by omega⟩ (Nat.le_of_lt_succ hi)
  case faults =>
    exact ⟨_, by rw [exec_store, if_neg (by rw [s.inBounds_ea_succ]; omega)]; rfl, rfl⟩

theorem State.sameBut_loadRegs (s : State) (base n : Nat) : State.SameBut { V := true } s (s.loadRegs base n) := by
  rw [State.loadRegs_eq]
  simp [State.SameBut]

/-- Settles O36, by the bounds check: V0 to Vx are loaded from `I` upward, or the access faults. -/
theorem loadReadsRegisters : Obligations.LoadReadsRegisters := by
  unfold Obligations.LoadReadsRegisters
  refine fun x => ⟨decode_formatXKK_load x, fun s => ⟨fun h => ?loads, fun h => ?faults⟩⟩
  case loads =>
    refine ⟨s.loadRegs (s.ea 0) (x.val + 1), ?_, fun i => ?_, s.sameBut_loadRegs _ _⟩
    · rw [exec_load, if_pos ((s.inBounds_ea_succ _).2 h)]
    · rw [State.loadRegs_V_get]
      exact if_congr Nat.lt_succ_iff rfl rfl
  case faults =>
    exact ⟨_, by rw [exec_load, if_neg (by rw [s.inBounds_ea_succ]; omega)]; rfl, rfl⟩

/-! ## Draws (R192 to R196) -/

theorem State.otherRegs_draw (s : State) (x y : Reg) (n : Nat) : State.OtherRegs [regVF] s (s.draw x y n) := by
  intro r hr
  rw [State.draw, State.setVF_V_get, if_neg (List.ne_of_not_mem_cons hr)]
  rfl

theorem State.sameBut_draw (s : State) (x y : Reg) (n : Nat) :
    State.SameBut { V := true, fb := true } s (s.draw x y n) := by
  simp [State.SameBut, State.draw]

/-- A draw without rows leaves every pixel and does not collide. -/
theorem State.spriteCanvas_zero (s : State) (x y : Reg) : s.spriteCanvas x y 0 = ⟨s.fb, false⟩ := rfl

theorem State.sameBut_draw_zero (s : State) (x y : Reg) : State.SameBut { V := true } s (s.draw x y 0) := by
  simp [State.SameBut, State.draw, State.spriteCanvas_zero]

theorem State.draw_zero_VF (s : State) (x y : Reg) : (s.draw x y 0).V[regVF] = 0 := by
  rw [State.draw_VF, State.spriteCanvas_zero]
  rfl

/-- VF after a draw, with what it tells of the pixels (R195). -/
theorem State.draw_VF_cases (s : State) (x y : Reg) (n : Nat) :
    ((s.draw x y n).V[regVF] = 1 ∧
      ∃ (i : Fin 32) (j : Fin 64), s.fb[i][j] = true ∧ (s.draw x y n).fb[i][j] = false) ∨
    ((s.draw x y n).V[regVF] = 0 ∧
      ¬∃ (i : Fin 32) (j : Fin 64), s.fb[i][j] = true ∧ (s.draw x y n).fb[i][j] = false) := by
  rw [← State.draw_VF_eq_one_iff]
  rcases s.draw_VF_eq_zero_or_one x y n with h | h <;> simp [h]

/-- Settles O38: the pixels under set bits are toggled, and VF tells whether one of them went off. -/
theorem drwTogglesSpritePixels : Obligations.DrwTogglesSpritePixels := by
  unfold Obligations.DrwTogglesSpritePixels
  refine fun x y n => ⟨decode_formatXY_drw x y n, fun s hmem => ?_⟩
  refine ⟨_, exec_drw_of_inBounds hmem x y, s.draw_px x y n.toNat, ?flag, s.otherRegs_draw x y _,
    s.sameBut_draw x y _⟩
  case flag =>
    refine (s.draw_VF_cases x y n.toNat).imp_right fun ⟨hVF, hnone⟩ => ⟨hVF, fun r c hon => ?_⟩
    by_contra hoff
    exact hnone ⟨r, c, hon, Bool.eq_false_iff.2 hoff⟩

/-- Settles O41: a draw of no rows is in bounds and draws nothing; one of `n + 1` rows is in bounds when its last byte
is. -/
theorem drwChecksWholeSprite : Obligations.DrwChecksWholeSprite := by
  unfold Obligations.DrwChecksWholeSprite
  refine fun x y s => ⟨?empty, fun n h => ?faults⟩
  case empty =>
    exact ⟨_, exec_drw_of_inBounds (.inl rfl) x y, s.draw_zero_VF x y, s.otherRegs_draw x y 0, s.sameBut_draw_zero x y⟩
  case faults =>
    exact ⟨_, by rw [exec_drw_boundsFault, if_neg (by rw [s.inBounds_ea_succ]; omega)]; rfl, rfl⟩

/-! ## Skips on a key (R201, R202, R208) -/

theorem State.keyAt?_of_eq {s : State} {b : Byte} {k : Reg} (h : b.toNat = k.val) :
    s.keyAt? b = some s.key[k] := by
  have hlt : b.toNat < 16 := by omega
  have hk : k = ⟨b.toNat, hlt⟩ := Fin.ext h.symm
  subst hk
  exact State.keyAt?_spec s b hlt

theorem exec_skp (x : Reg) (s : State) : exec (.skp x) s = execSkp x s := rfl

theorem exec_sknp (x : Reg) (s : State) : exec (.sknp x) s = execSknp x s := rfl

theorem exec_skp_of_keyAt? {s : State} {x : Reg} {down : Bool} (h : s.keyAt? s.V[x] = some down) :
    exec (.skp x) s = .next (s.skipIf down) := by
  rw [exec_skp, execSkp, State.reg_eq, h]

theorem exec_sknp_of_keyAt? {s : State} {x : Reg} {down : Bool} (h : s.keyAt? s.V[x] = some down) :
    exec (.sknp x) s = .next (s.skipIf !down) := by
  rw [exec_sknp, execSknp, State.reg_eq, h]

theorem exec_skp_of_none {s : State} {x : Reg} (h : s.keyAt? s.V[x] = none) :
    exec (.skp x) s = .fault (.keyIndexOutOfRange ⟨s.instrAddr, some s.opcode, (s.V[x]).toNat⟩) := by
  rw [exec_skp, execSkp, State.reg_eq, h]
  rfl

theorem exec_sknp_of_none {s : State} {x : Reg} (h : s.keyAt? s.V[x] = none) :
    exec (.sknp x) s = .fault (.keyIndexOutOfRange ⟨s.instrAddr, some s.opcode, (s.V[x]).toNat⟩) := by
  rw [exec_sknp, execSknp, State.reg_eq, h]
  rfl

/-- Settles O42, by the two answers of the keypad: a level, or no such key. -/
theorem skipsOnKey : Obligations.SkipsOnKey := by
  unfold Obligations.SkipsOnKey
  refine fun x => ⟨decode_formatXKK_skp x, decode_formatXKK_sknp x, fun s => ⟨fun k hk => ?level, fun hk => ?noKey⟩⟩
  case level =>
    have hkey := s.keyAt?_of_eq hk
    refine ⟨⟨_, exec_skp_of_keyAt? hkey, s.skipIf_pc _, s.sameBut_skipIf _⟩,
      ⟨_, exec_sknp_of_keyAt? hkey, ?_, s.sameBut_skipIf _⟩⟩
    rw [State.skipIf_pc]
    cases s.key[k] <;> rfl
  case noKey =>
    have hnone := (s.keyAt?_eq_none s.V[x]).2 hk
    exact ⟨⟨_, exec_skp_of_none hnone, rfl⟩, ⟨_, exec_sknp_of_none hnone, rfl⟩⟩

end Sys2Proof.Machine
end

section
/-!
PROOFS. How an instruction can end, and what it leaves alone: the faults of spec/60_exceptions.md section 2 and the
access matrix of spec/10_state.md section 10, each said once for all 34 operations.
-/
namespace Sys2Proof.Machine

/-! ## How an instruction can end (R112, R221) -/

/-- The fault `i` may raise on `s`, with the record of R225. -/
def Fault.IsTabled (f : Fault) (i : Instr) (s : State) : Prop :=
  i.faultOf s = some (f.code, f.info.aux) ∧ f.info.addr = s.pc - 2 ∧ f.info.word = some s.opcode

/-- An outcome that is a next state or the fault the table gives. -/
def Ends (i : Instr) (s : State) (r : Result) : Prop :=
  (∃ t, r = .next t) ∨ ∃ f, r = .fault f ∧ f.IsTabled i s

theorem ends_next (i : Instr) (s t : State) : Ends i s (.next t) := .inl ⟨t, rfl⟩

theorem ends_fault {i : Instr} {s : State} {f : Fault} (h : f.IsTabled i s) : Ends i s (.fault f) := .inr ⟨f, rfl, h⟩

/-- An access through `I` completes, or ends with the fault of the bounds check. -/
theorem ends_of_bounds {i : Instr} {s t : State} (hi : s.boundsFault.IsTabled i s) (c : Bool) :
    Ends i s (if c then .next t else .fault s.boundsFault) := by
  cases c
  · exact ends_fault hi
  · exact ends_next i s t

theorem exec_ends (i : Instr) (s : State) : Ends i s (exec i s) := by
  cases i with
  | ret =>
    rcases Nat.eq_zero_or_pos s.sp.val with h | h
    · rw [exec_ret_of_empty h]; exact ends_fault ⟨rfl, rfl, rfl⟩
    · rw [exec_ret_of_pos h]; exact ends_next ..
  | call nnn =>
    rcases Nat.lt_or_ge s.sp.val 16 with h | h
    · rw [exec_call_of_lt h]; exact ends_next ..
    · rw [exec_call_of_full (by omega)]; exact ends_fault ⟨rfl, rfl, rfl⟩
  | drw x y n => exact ends_of_bounds ⟨rfl, rfl, rfl⟩ _
  | ldB x => exact ends_of_bounds ⟨rfl, rfl, rfl⟩ _
  | store x => exact ends_of_bounds ⟨rfl, rfl, rfl⟩ _
  | load x => exact ends_of_bounds ⟨rfl, rfl, rfl⟩ _
  | skp x =>
    cases h : s.keyAt? s.V[x] with
    | none => rw [exec_skp_of_none h]; exact ends_fault ⟨rfl, rfl, rfl⟩
    | some down => rw [exec_skp_of_keyAt? h]; exact ends_next ..
  | sknp x =>
    cases h : s.keyAt? s.V[x] with
    | none => rw [exec_sknp_of_none h]; exact ends_fault ⟨rfl, rfl, rfl⟩
    | some down => rw [exec_sknp_of_keyAt? h]; exact ends_next ..
  | ldVxK x =>
    rw [exec_ldVxK, execLdVxK]
    cases s.lowestKey? <;> exact ends_next ..
  | _ => exact ends_next ..

theorem exec_ne_refused (i : Instr) (s : State) (r : Refusal) : exec i s ≠ .refused r := by
  rcases exec_ends i s with ⟨t, h⟩ | ⟨f, h, _⟩ <;> simp [h]

theorem isTabled_of_exec {i : Instr} {s : State} {f : Fault} (h : exec i s = .fault f) : f.IsTabled i s := by
  rcases exec_ends i s with ⟨t, ht⟩ | ⟨g, hg, htab⟩
  · rw [h] at ht; cases ht
  · rw [h] at hg; cases hg; exact htab

/-- A cycle whose word decodes is the handler and the end of the cycle (R108). -/
theorem cycle_of_decode {s : State} {w : Word} {i : Instr} (hw : fetch s = .ok w) (hi : decode w = .ok i) (tick : Bool)
    (rnd : Byte) : cycle tick rnd s = mapNext (endCycle tick) (exec i (enter w rnd s)) := by
  rw [cycle_of_fetch hw, dispatch_of_ok hi]

/-- A cycle whose word is unrecognised is a diagnostic and the end of the cycle (R88). -/
theorem cycle_of_unrecognised {s : State} {w : Word} {e : DecodeError} (hw : fetch s = .ok w)
    (he : decode w = .error e) (tick : Bool) (rnd : Byte) :
    cycle tick rnd s = .next (endCycle tick (enter w rnd s).report) := by
  rw [cycle_of_fetch hw, dispatch_of_error he, mapNext_next]

theorem cycle_ne_refused (tick : Bool) (rnd : Byte) (s : State) (r : Refusal) : cycle tick rnd s ≠ .refused r := by
  cases hf : fetch s with
  | error f => simp [cycle, hf]
  | ok w =>
    cases hd : decode w with
    | error e => simp [cycle_of_unrecognised hf hd]
    | ok i =>
      rw [cycle_of_decode hf hd]
      rcases exec_ends i (enter w rnd s) with ⟨t, h⟩ | ⟨f, h, _⟩ <;> simp [h]

/-- Settles O10: a handler ends with a next state or a tabled fault, and so does every cycle. -/
theorem stepNeverRefuses : Obligations.StepNeverRefuses := by
  unfold Obligations.StepNeverRefuses
  exact ⟨exec_ne_refused, fun s => cycle_ne_refused _ _ s⟩

/-- No handler raises the fault of the fetch (R230). -/
theorem Fault.code_ne_one_of_isTabled {f : Fault} {i : Instr} {s : State} (h : f.IsTabled i s) : f.code ≠ 1 := by
  obtain ⟨htab, -, -⟩ := h
  intro hcode
  rw [hcode] at htab
  cases i <;> simp [Instr.faultOf] at htab

/-- The address of the instruction a cycle entered is the `pc` before it. -/
theorem enter_pc_sub (w : Word) (rnd : Byte) (s : State) : (enter w rnd s).pc - 2 = s.pc := by
  rw [enter_pc]
  exact BitVec.add_sub_cancel _ _

/-- Settles O47: a handler raises its tabled fault, and a cycle raises its fetch's fault or the handler's. -/
theorem faultsFollowTheTable : Obligations.FaultsFollowTheTable := by
  unfold Obligations.FaultsFollowTheTable
  refine ⟨fun i s f h => isTabled_of_exec h, fun tick rnd s => ⟨fun hpc => cycle_of_pc_ge hpc tick rnd, ?_⟩⟩
  intro w f hw hf
  rcases cycle_eq_fault.1 hf with hfetch | ⟨w', i, hw', -, hexec⟩
  · rw [hw] at hfetch; cases hfetch
  · rw [hw] at hw'
    cases hw'
    obtain ⟨haux, haddr, hword⟩ := isTabled_of_exec hexec
    exact ⟨haddr.trans (enter_pc_sub w rnd s), hword, Fault.code_ne_one_of_isTabled ⟨haux, haddr, hword⟩⟩

end Sys2Proof.Machine

namespace Sys2Proof
open Machine

/-! ## What an instruction leaves alone (R38) -/

/-- The frame of `i`: `t` is `s` but for what the row of `i` in the access matrix lists. Where the row lists memory, the
bytes are told by `Instr.byteAfter`. -/
structure Instr.Frame (i : Instr) (s t : State) : Prop where
  reg : ∀ r : Reg, i.writesReg r = false → t.V[r] = s.V[r]
  V : i.writes.V = false → t.V = s.V
  I : i.writes.I = false → t.I = s.I
  pc : i.writes.pc = false → t.pc = s.pc
  stack : i.writes.stack = false → t.stack = s.stack
  slot : ∀ j : Fin 16, j.val ≠ s.sp.val → t.stack[j] = s.stack[j]
  sp : i.writes.sp = false → t.sp = s.sp
  DT : i.writes.DT = false → t.DT = s.DT
  ST : i.writes.ST = false → t.ST = s.ST
  fb : i.writes.fb = false → t.fb = s.fb
  mem : i.writes.mem = false → t.mem = s.mem
  key : t.key = s.key
  opcode : t.opcode = s.opcode
  rnd : t.rnd = s.rnd
  cycles : t.cycles = s.cycles
  diags : t.diags = s.diags

namespace Instr.Frame
variable {i : Instr} {s t : State}

theorem refl : i.Frame s s := by
  constructor <;> intros <;> rfl

/-! An update of a listed part keeps the frame. -/

theorem setV (h : i.Frame s t) {x : Reg} (hV : i.writes.V = true) (hx : i.writesReg x = true) (v : Byte) :
    i.Frame s (t.setV x v) :=
  { h with
    reg := fun r hr => by
      have hne : r ≠ x := by rintro rfl; simp [hx] at hr
      rw [State.setV_V_get, if_neg hne, h.reg r hr]
    V := by simp [hV] }

theorem setVThenVF (h : i.Frame s t) {x : Reg} (hV : i.writes.V = true) (hx : i.writesReg x = true)
    (hf : i.writesReg regVF = true) (v f : Byte) : i.Frame s (t.setVThenVF x v f) :=
  (h.setV hV hx v).setV hV hf f

theorem setVFThenMap (h : i.Frame s t) {x : Reg} (hV : i.writes.V = true) (hx : i.writesReg x = true)
    (hf : i.writesReg regVF = true) (f : Byte) (g : Byte → Byte) : i.Frame s (t.setVFThenMap f x g) :=
  (h.setV hV hf f).setV hV hx _

theorem setI (h : i.Frame s t) (hI : i.writes.I = true) (v : Word) : i.Frame s (t.setI v) :=
  { h with I := by simp [hI] }

theorem setPc (h : i.Frame s t) (hpc : i.writes.pc = true) (v : Word) : i.Frame s (t.setPc v) :=
  { h with pc := by simp [hpc] }

theorem skipIf (h : i.Frame s t) (hpc : i.writes.pc = true) (c : Bool) : i.Frame s (t.skipIf c) :=
  { h with pc := by simp [hpc] }

theorem setDT (h : i.Frame s t) (hDT : i.writes.DT = true) (v : Byte) : i.Frame s (t.setDT v) :=
  { h with DT := by simp [hDT] }

theorem setST (h : i.Frame s t) (hST : i.writes.ST = true) (v : Byte) : i.Frame s (t.setST v) :=
  { h with ST := by simp [hST] }

theorem setFb (h : i.Frame s t) (hfb : i.writes.fb = true) (fb : FrameBuffer) : i.Frame s (t.setFb fb) :=
  { h with fb := by simp [hfb] }

theorem storeAtI (h : i.Frame s t) (hmem : i.writes.mem = true) (bs : List Byte) : i.Frame s (t.storeAtI bs) :=
  { h with mem := by simp [hmem] }

theorem setSp (h : i.Frame s t) (hsp : i.writes.sp = true) (p : Fin 17) : i.Frame s { t with sp := p } :=
  { h with sp := by simp [hsp] }

/-- A write of the slot at the old `sp`. -/
theorem setSlot (h : i.Frame s t) (hstack : i.writes.stack = true) (hlt : s.sp.val < 16) (v : Word) :
    i.Frame s { t with stack := t.stack.set s.sp.val v hlt } :=
  { h with
    stack := by simp [hstack]
    slot := fun j hj => (Vector.getElem_set_ne hlt j.isLt hj.symm).trans (h.slot j hj) }

theorem loadRegs (h : i.Frame s t) (hV : i.writes.V = true) {n : Nat}
    (hx : ∀ r : Reg, r.val < n → i.writesReg r = true) (base : Nat) : i.Frame s (t.loadRegs base n) := by
  induction n with
  | zero => exact h
  | succ n ih =>
    have hn := ih fun r hr => hx r (Nat.lt_succ_of_lt hr)
    rw [State.loadRegs]
    split
    · exact hn.setV hV (hx _ (Nat.lt_succ_self n)) _
    · exact hn

end Instr.Frame

end Sys2Proof

namespace Sys2Proof.Machine

/-- An access that completed passed the bounds check and did what it does then. -/
theorem bounds_of_next {s t u : State} {c : Bool}
    (h : (if c then .next u else .fault s.boundsFault : Result) = .next t) : c = true ∧ t = u := by
  cases c
  · cases h
  · cases h
    exact ⟨rfl, rfl⟩

/-- Every completed instruction keeps its frame: it is made of updates of the parts its row lists. -/
theorem frame_of_exec {i : Instr} {s t : State} (h : exec i s = .next t) : i.Frame s t := by
  cases i with
  | cls => cases h; exact .setFb .refl rfl _
  | ret =>
    rcases Nat.eq_zero_or_pos s.sp.val with hsp | hsp
    · rw [exec_ret_of_empty hsp] at h; cases h
    · rw [exec_ret_of_pos hsp] at h; cases h
      exact .setPc (.setSp .refl rfl _) rfl _
  | jp nnn => cases h; exact .setPc .refl rfl _
  | call nnn =>
    rcases Nat.lt_or_ge s.sp.val 16 with hsp | hsp
    · rw [exec_call_of_lt hsp] at h; cases h
      exact .setPc (.setSp (.setSlot .refl rfl hsp _) rfl _) rfl _
    · rw [exec_call_of_full (by omega)] at h; cases h
  | seByte x kk => cases h; exact .skipIf .refl rfl _
  | sneByte x kk => cases h; exact .skipIf .refl rfl _
  | seReg x y => cases h; exact .skipIf .refl rfl _
  | sneReg x y => cases h; exact .skipIf .refl rfl _
  | ldByte x kk => cases h; exact .setV .refl rfl (by simp [Instr.writesReg]) _
  | addByte x kk => cases h; exact .setV .refl rfl (by simp [Instr.writesReg]) _
  | ldReg x y => cases h; exact .setV .refl rfl (by simp [Instr.writesReg]) _
  | orReg x y => cases h; exact .setV .refl rfl (by simp [Instr.writesReg]) _
  | andReg x y => cases h; exact .setV .refl rfl (by simp [Instr.writesReg]) _
  | xorReg x y => cases h; exact .setV .refl rfl (by simp [Instr.writesReg]) _
  | addReg x y =>
    rw [exec_addReg] at h; cases h
    exact .setVThenVF .refl rfl (by simp [Instr.writesReg]) (by simp [Instr.writesReg]) _ _
  | subReg x y =>
    rw [exec_subReg] at h; cases h
    exact .setVThenVF .refl rfl (by simp [Instr.writesReg]) (by simp [Instr.writesReg]) _ _
  | shr x y =>
    rw [exec_shr] at h; cases h
    exact .setVFThenMap .refl rfl (by simp [Instr.writesReg]) (by simp [Instr.writesReg]) _ _
  | subnReg x y =>
    rw [exec_subnReg] at h; cases h
    exact .setVThenVF .refl rfl (by simp [Instr.writesReg]) (by simp [Instr.writesReg]) _ _
  | shl x y =>
    rw [exec_shl] at h; cases h
    exact .setVFThenMap .refl rfl (by simp [Instr.writesReg]) (by simp [Instr.writesReg]) _ _
  | ldI nnn => cases h; exact .setI .refl rfl _
  | jpV0 nnn => cases h; exact .setPc .refl rfl _
  | rnd x kk => cases h; exact .setV .refl rfl (by simp [Instr.writesReg]) _
  | drw x y n =>
    obtain rfl := eq_draw_of_exec_drw h
    exact .setV (.setFb .refl rfl _) rfl rfl _
  | skp x =>
    cases hk : s.keyAt? s.V[x] with
    | none => rw [exec_skp_of_none hk] at h; cases h
    | some down => rw [exec_skp_of_keyAt? hk] at h; cases h; exact .skipIf .refl rfl _
  | sknp x =>
    cases hk : s.keyAt? s.V[x] with
    | none => rw [exec_sknp_of_none hk] at h; cases h
    | some down => rw [exec_sknp_of_keyAt? hk] at h; cases h; exact .skipIf .refl rfl _
  | ldVxDT x => cases h; exact .setV .refl rfl (by simp [Instr.writesReg]) _
  | ldVxK x =>
    rw [exec_ldVxK, execLdVxK] at h
    cases hk : s.lowestKey? with
    | none => rw [hk] at h; cases h; exact .setPc .refl rfl _
    | some k => rw [hk] at h; cases h; exact .setV .refl rfl (by simp [Instr.writesReg]) _
  | ldDTVx x => cases h; exact .setDT .refl rfl _
  | ldSTVx x => cases h; exact .setST .refl rfl _
  | addI x => cases h; exact .setI .refl rfl _
  | ldF x => cases h; exact .setI .refl rfl _
  | ldB x => obtain ⟨-, rfl⟩ := bounds_of_next h; exact .storeAtI .refl rfl _
  | store x => obtain ⟨-, rfl⟩ := bounds_of_next h; exact .storeAtI .refl rfl _
  | load x =>
    obtain ⟨-, rfl⟩ := bounds_of_next h
    exact .loadRegs (i := .load x) .refl rfl (fun r hr => decide_eq_true (Nat.le_of_lt_succ hr)) _

/-! ## What memory holds after an instruction (R52, R54) -/

/-- Every byte after a completed instruction is the one `Instr.byteAfter` tells. -/
theorem byte_of_exec {i : Instr} {s t : State} (h : exec i s = .next t) (a : Nat) :
    t.mem.byte a = i.byteAfter s a := by
  have hframe := frame_of_exec h
  cases i with
  | ldB x => obtain ⟨-, rfl⟩ := bounds_of_next h; exact s.storeAtI_byte _ a
  | store x => obtain ⟨-, rfl⟩ := bounds_of_next h; exact s.storeAtI_byte _ a
  | _ =>
    rw [hframe.mem rfl]
    simp [Instr.byteAfter, Instr.storedData]

theorem length_storedData (s : State) (i : Instr) : (i.storedData s).length = i.storedBytes := by
  cases i with
  | store x => exact s.length_regsTo x
  | _ => rfl

theorem byteAfter_of_not_stored {s : State} {i : Instr} {a : Nat} (h : ∀ k, k < i.storedBytes → a ≠ s.ea k) :
    i.byteAfter s a = s.mem.byte a := by
  rw [← length_storedData s] at h
  have hbyte := s.storeAtI_byte_of_ne h
  rwa [State.storeAtI_byte] at hbyte

/-- Settles O51: the parts, registers and slots are the frame's, the bytes are `Instr.byteAfter`'s. -/
theorem writesFollowAccessMatrix : Obligations.WritesFollowAccessMatrix := by
  unfold Obligations.WritesFollowAccessMatrix
  intro i s t h
  have hf := frame_of_exec h
  refine ⟨?parts, hf.reg, hf.slot, fun a ha => (byte_of_exec h a).trans (byteAfter_of_not_stored ha)⟩
  case parts =>
    exact ⟨hf.V, hf.I, hf.pc, hf.stack, hf.sp, hf.DT, hf.ST, hf.fb, fun hm a => by rw [hf.mem hm], hf.key, hf.opcode,
      hf.rnd, hf.cycles, hf.diags⟩

/-! ## `pc` after an instruction (R24) -/

section
variable {s : State} (hpc : s.pc.toNat ≤ 0xFFE) (w : Word) (rnd : Byte)
include hpc

theorem enter_pc_toNat : (enter w rnd s).pc.toNat = s.pc.toNat + 2 := by
  rw [enter_pc]
  bv_omega

theorem skipIf_enter_pc_toNat (c : Bool) :
    ((enter w rnd s).skipIf c).pc.toNat = if c = true then s.pc.toNat + 4 else s.pc.toNat + 2 := by
  have henter := enter_pc_toNat hpc w rnd
  rw [State.skipIf_pc]
  cases c
  · exact henter
  · show ((enter w rnd s).pc + 2).toNat = s.pc.toNat + 4
    bv_omega

/-- `pc` after a handler is what the spec's table tells from the state before the cycle. -/
theorem pc_of_exec {i : Instr} {u : State} (h : exec i (enter w rnd s) = .next u) : u.pc.toNat = i.pcAfter s := by
  have hframe := frame_of_exec h
  have henter := enter_pc_toNat hpc w rnd
  have hskip := skipIf_enter_pc_toNat hpc w rnd
  cases i with
  | jp nnn => cases h; exact addrOfImm_toNat nnn
  | call nnn =>
    rcases Nat.lt_or_ge s.sp.val 16 with hsp | hsp
    · rw [exec_call_of_lt (s := enter w rnd s) hsp] at h; cases h; exact addrOfImm_toNat nnn
    · rw [exec_call_of_full (s := enter w rnd s) (Nat.le_antisymm (Nat.le_of_lt_succ s.sp.isLt) hsp)] at h; cases h
  | ret =>
    rcases Nat.eq_zero_or_pos s.sp.val with hsp | hsp
    · rw [exec_ret_of_empty (s := enter w rnd s) hsp] at h; cases h
    · rw [exec_ret_of_pos (s := enter w rnd s) hsp] at h; cases h
      rw [Instr.pcAfter, dif_pos hsp]
      rfl
  | jpV0 nnn => cases h; exact jpV0_target_toNat _ nnn
  | seByte x kk => cases h; rw [hskip]; simp [Instr.pcAfter]
  | sneByte x kk => cases h; rw [hskip]; simp [Instr.pcAfter]
  | seReg x y => cases h; rw [hskip]; simp [Instr.pcAfter]
  | sneReg x y => cases h; rw [hskip]; simp [Instr.pcAfter]
  | skp x =>
    have hkey : (enter w rnd s).keyAt? (enter w rnd s).V[x] = s.keyAt? s.V[x] := rfl
    cases hk : s.keyAt? s.V[x] with
    | none => rw [exec_skp_of_none (hkey.trans hk)] at h; cases h
    | some down =>
      rw [exec_skp_of_keyAt? (hkey.trans hk)] at h; cases h
      rw [hskip, Instr.pcAfter, hk]
      simp
  | sknp x =>
    have hkey : (enter w rnd s).keyAt? (enter w rnd s).V[x] = s.keyAt? s.V[x] := rfl
    cases hk : s.keyAt? s.V[x] with
    | none => rw [exec_sknp_of_none (hkey.trans hk)] at h; cases h
    | some down =>
      rw [exec_sknp_of_keyAt? (hkey.trans hk)] at h; cases h
      rw [hskip, Instr.pcAfter, hk]
      simp
  | ldVxK x =>
    by_cases hup : ∀ k : Reg, s.key[k] = false
    · rw [exec_ldVxK_of_keys_up (s := enter w rnd s) hup] at h; cases h
      rw [State.setPc_pc, enter_pc_sub, Instr.pcAfter, if_pos hup]
    · rw [exec_ldVxK, execLdVxK] at h
      cases hk : (enter w rnd s).lowestKey? with
      | none => exact absurd ((State.lowestKey?_eq_none _).1 hk) hup
      | some k =>
        rw [hk] at h; cases h
        rw [State.setV_pc, henter, Instr.pcAfter, if_neg hup]
  | _ => rw [hframe.pc rfl, henter]; rfl

end

theorem slot_of_exec_call {s t : State} {nnn : Imm12} (h : exec (.call nnn) s = .next t) (hsp : s.sp.val < 16) :
    t.stack[s.sp.val]'hsp = s.pc := by
  rw [exec_call_of_lt hsp] at h
  cases h
  exact Vector.getElem_set_self hsp

theorem perform_state_of_fault {tick : Bool} {rnd : Byte} {s : State} {f : Fault} (h : cycle tick rnd s = .fault f) :
    (perform tick (.cycle rnd) s).1 = s := by
  rw [perform_cycle_of_fault h]

/-- Settles O50: the handler's `pc` is the table's, a diagnostic leaves the advance, and the end of the cycle leaves
`pc`. -/
theorem programCounterTable : Obligations.ProgramCounterTable := by
  unfold Obligations.ProgramCounterTable
  refine fun tick rnd s => ⟨fun w t hw ht => ?completes, fun f => perform_state_of_fault⟩
  obtain ⟨hpc, -⟩ := fetch_eq_ok.1 hw
  obtain ⟨w', hw', hran⟩ := cycle_eq_next.1 ht
  obtain rfl : w = w' := Except.ok.inj (hw.symm.trans hw')
  rcases hran with ⟨i, u, hi, hu, rfl⟩ | ⟨⟨e, he⟩, rfl⟩
  · refine ⟨fun j hj => ?_, fun e he => ?_, fun nnn hcall hsp => ?_⟩
    · rw [hi] at hj; cases hj
      rw [endCycle_pc]
      exact pc_of_exec hpc w rnd hu
    · rw [hi] at he; cases he
    · rw [hi] at hcall; cases hcall
      have hslot := slot_of_exec_call hu hsp
      exact (congrArg BitVec.toNat hslot).trans (enter_pc_toNat hpc w rnd)
  · refine ⟨fun j hj => ?_, fun _ _ => enter_pc_toNat hpc w rnd, fun nnn hcall => ?_⟩
    · rw [he] at hj; cases hj
    · rw [he] at hcall; cases hcall

/-! ## The fetch after a store (R64) -/

/-- What a handler stores does not depend on the fetch. -/
theorem byteAfter_enter (i : Instr) (w : Word) (rnd : Byte) (s : State) (a : Nat) :
    i.byteAfter (enter w rnd s) a = i.byteAfter s a := by
  have hdata : i.storedData (enter w rnd s) = i.storedData s := by cases i <;> rfl
  rw [Instr.byteAfter, hdata]
  rfl

/-- Settles O57: a fetch reads two bytes of memory, and the end of a cycle leaves memory. -/
theorem storeIsSeenByNextFetch : Obligations.StoreIsSeenByNextFetch := by
  unfold Obligations.StoreIsSeenByNextFetch
  refine ⟨fun i s t h a ha => ?handler, fun tick rnd s t w i hw hi ht hpc => ?cycle⟩
  case handler =>
    rw [← byte_of_exec h, ← byte_of_exec h]
    exact fetch_of_le (s := { t with pc := a }) ha
  case cycle =>
    obtain ⟨w', hw', hran⟩ := cycle_eq_next.1 ht
    obtain rfl : w = w' := Except.ok.inj (hw.symm.trans hw')
    rcases hran with ⟨j, u, hj, hu, rfl⟩ | ⟨⟨e, he⟩, -⟩
    · rw [hi] at hj; cases hj
      have hbyte (a : Nat) : (endCycle tick u).mem.byte a = i.byteAfter s a := by
        rw [endCycle_mem, byte_of_exec hu, byteAfter_enter]
      rw [← hbyte, ← hbyte]
      exact fetch_of_le hpc
    · rw [hi] at he; cases he

end Sys2Proof.Machine
end

section
/-!
PROOFS. The reads of the access matrix (spec/10_state.md section 10): a part of the state that an instruction neither
reads nor writes passes through it; and what follows for the faults of a cycle (spec/60_exceptions.md section 2).
-/
namespace Sys2Proof.Machine

/-- A value for one of the parts of the state of which the reads of R38 are told. -/
inductive PartValue where
  | key (k : Vector Bool 16)
  | rnd (b : Byte)
  | DT (b : Byte)
  | ST (b : Byte)
  | fb (d : FrameBuffer)
  | stack (p : Fin 17) (k : Vector Word 16)
  | mem (m : Memory)
  | I (v : Word)

/-- The state with the value in its part. -/
def PartValue.put : PartValue → State → State
  | .key k, s => { s with key := k }
  | .rnd b, s => { s with rnd := b }
  | .DT b, s => { s with DT := b }
  | .ST b, s => { s with ST := b }
  | .fb d, s => { s with fb := d }
  | .stack p k, s => { s with sp := p, stack := k }
  | .mem m, s => { s with mem := m }
  | .I v, s => { s with I := v }

end Sys2Proof.Machine

namespace Sys2Proof
open Machine

/-- The row of `i` in the access matrix does not list the part (R38). -/
def Instr.Ignores (i : Instr) : PartValue → Prop
  | .key _ => ∀ x, i ≠ .skp x ∧ i ≠ .sknp x ∧ i ≠ .ldVxK x
  | .rnd _ => ∀ x kk, i ≠ .rnd x kk
  | .DT _ => ∀ x, i ≠ .ldVxDT x ∧ i ≠ .ldDTVx x
  | .ST _ => ∀ x, i ≠ .ldSTVx x
  | .fb _ => i ≠ .cls ∧ ∀ x y n, i ≠ .drw x y n
  | .stack _ _ => i ≠ .ret ∧ ∀ nnn, i ≠ .call nnn
  | .mem _ => (∀ x y n, i ≠ .drw x y n) ∧ ∀ x, i ≠ .ldB x ∧ i ≠ .store x ∧ i ≠ .load x
  | .I _ => (∀ x y n, i ≠ .drw x y n) ∧ (∀ nnn, i ≠ .ldI nnn) ∧
      ∀ x, i ≠ .addI x ∧ i ≠ .ldF x ∧ i ≠ .ldB x ∧ i ≠ .store x ∧ i ≠ .load x

end Sys2Proof

namespace Sys2Proof.Machine

theorem PartValue.put_setV (p : PartValue) (s : State) (x : Reg) (v : Byte) :
    (p.put s).setV x v = p.put (s.setV x v) := by
  cases p <;> rfl

theorem PartValue.put_loadRegs {p : PartValue} {s : State} (hmem : (p.put s).mem = s.mem) (base n : Nat) :
    (p.put s).loadRegs base n = p.put (s.loadRegs base n) := by
  induction n with
  | zero => rfl
  | succ n ih =>
    rw [State.loadRegs, State.loadRegs, ih, hmem]
    split
    · exact p.put_setV _ _ _
    · rfl

theorem mapNext_bounds (g : State → State) (s t : State) (c : Bool) :
    mapNext g (if c then .next t else .fault s.boundsFault) =
      if c then .next (g t) else .fault s.boundsFault := by
  cases c <;> rfl

/-- An instruction that ignores a part passes it through: it reads other parts and updates other parts. -/
theorem exec_put {i : Instr} {p : PartValue} (h : i.Ignores p) (s : State) :
    exec i (p.put s) = mapNext p.put (exec i s) := by
  cases i with
  | cls =>
    cases p with
    | fb d => simp [Instr.Ignores] at h
    | _ => rfl
  | ret =>
    rcases Nat.eq_zero_or_pos s.sp.val with hsp | hsp
    · rw [exec_ret_of_empty hsp]
      cases p with
      | stack q k => simp [Instr.Ignores] at h
      | _ => exact exec_ret_of_empty (s := PartValue.put _ s) (by exact hsp)
    · rw [exec_ret_of_pos hsp]
      cases p with
      | stack q k => simp [Instr.Ignores] at h
      | _ => exact exec_ret_of_pos (s := PartValue.put _ s) (by exact hsp)
  | call nnn =>
    rcases Nat.lt_or_ge s.sp.val 16 with hsp | hsp
    · rw [exec_call_of_lt hsp]
      cases p with
      | stack q k => simp [Instr.Ignores] at h
      | _ => exact exec_call_of_lt (s := PartValue.put _ s) (by exact hsp) nnn
    · have hfull : s.sp.val = 16 := by omega
      rw [exec_call_of_full hfull]
      cases p with
      | stack q k => simp [Instr.Ignores] at h
      | _ => exact exec_call_of_full (s := PartValue.put _ s) (by exact hfull) nnn
  | ldI nnn =>
    cases p with
    | I v => simp [Instr.Ignores] at h
    | _ => rfl
  | rnd x kk =>
    cases p with
    | rnd b => simp [Instr.Ignores] at h
    | _ => rfl
  | drw x y n =>
    rw [exec_drw_boundsFault, exec_drw_boundsFault, mapNext_bounds]
    cases p with
    | fb d => simp [Instr.Ignores] at h
    | mem m => simp [Instr.Ignores] at h
    | I v => simp [Instr.Ignores] at h
    | _ => rfl
  | skp x =>
    cases hk : s.keyAt? s.V[x] with
    | none =>
      rw [exec_skp_of_none hk]
      cases p with
      | key k => simp [Instr.Ignores] at h
      | _ => exact exec_skp_of_none hk
    | some down =>
      rw [exec_skp_of_keyAt? hk]
      cases p with
      | key k => simp [Instr.Ignores] at h
      | _ => exact exec_skp_of_keyAt? hk
  | sknp x =>
    cases hk : s.keyAt? s.V[x] with
    | none =>
      rw [exec_sknp_of_none hk]
      cases p with
      | key k => simp [Instr.Ignores] at h
      | _ => exact exec_sknp_of_none hk
    | some down =>
      rw [exec_sknp_of_keyAt? hk]
      cases p with
      | key k => simp [Instr.Ignores] at h
      | _ => exact exec_sknp_of_keyAt? hk
  | ldVxDT x =>
    cases p with
    | DT b => simp [Instr.Ignores] at h
    | _ => rfl
  | ldVxK x =>
    cases hk : s.lowestKey? with
    | none =>
      have hup := s.lowestKey?_eq_none.1 hk
      rw [exec_ldVxK_of_keys_up hup]
      cases p with
      | key k => simp [Instr.Ignores] at h
      | _ => exact exec_ldVxK_of_keys_up (s := PartValue.put _ s) (by exact hup) x
    | some k =>
      obtain ⟨hdown, hlower⟩ := (s.lowestKey?_eq_some k).1 hk
      rw [exec_ldVxK_of_lowest hdown hlower]
      cases p with
      | key k => simp [Instr.Ignores] at h
      | _ => exact exec_ldVxK_of_lowest (s := PartValue.put _ s) (by exact hdown) (by exact hlower) x
  | ldDTVx x =>
    cases p with
    | DT b => simp [Instr.Ignores] at h
    | _ => rfl
  | ldSTVx x =>
    cases p with
    | ST b => simp [Instr.Ignores] at h
    | _ => rfl
  | addI x =>
    cases p with
    | I v => simp [Instr.Ignores] at h
    | _ => rfl
  | ldF x =>
    cases p with
    | I v => simp [Instr.Ignores] at h
    | _ => rfl
  | ldB x =>
    rw [exec_ldB, exec_ldB, mapNext_bounds]
    cases p with
    | mem m => simp [Instr.Ignores] at h
    | I v => simp [Instr.Ignores] at h
    | _ => rfl
  | store x =>
    rw [exec_store, exec_store, mapNext_bounds]
    cases p with
    | mem m => simp [Instr.Ignores] at h
    | I v => simp [Instr.Ignores] at h
    | _ => rfl
  | load x =>
    rw [exec_load, exec_load, mapNext_bounds]
    cases p with
    | mem m => simp [Instr.Ignores] at h
    | I v => simp [Instr.Ignores] at h
    | _ => rw [PartValue.put_loadRegs rfl]; rfl
  | _ => cases p <;> rfl

/-- Settles O52, one part after the other. -/
theorem unreadPartsDoNotMatter : Obligations.UnreadPartsDoNotMatter := by
  unfold Obligations.UnreadPartsDoNotMatter
  intro i s
  refine ⟨fun h k => ?key, fun h b => ?rnd, fun h b => ?DT, fun h b => ?ST, fun hcls hdrw d => ?fb,
    fun hret hcall p k => ?stack, fun hdrw hmem m => ?mem, fun hdrw hldI hI v => ?I⟩
  case key => exact exec_put (p := .key k) h s
  case rnd => exact exec_put (p := .rnd b) h s
  case DT => exact exec_put (p := .DT b) h s
  case ST => exact exec_put (p := .ST b) h s
  case fb => exact exec_put (p := .fb d) ⟨hcls, hdrw⟩ s
  case stack => exact exec_put (p := .stack p k) ⟨hret, hcall⟩ s
  case mem => exact exec_put (p := .mem m) ⟨hdrw, hmem⟩ s
  case I => exact exec_put (p := .I v) ⟨hdrw, hldI, hI⟩ s

/-! ## Faults of a cycle (R223, R224, R234) -/

/-- No fault depends on the input byte: the one instruction that reads it never faults. -/
theorem exec_fault_of_rnd {i : Instr} {s : State} {f : Fault} (h : exec i s = .fault f) (b : Byte) :
    exec i { s with rnd := b } = .fault f := by
  have hi : i.Ignores (.rnd b) := by rintro x kk rfl; cases h
  have hput := exec_put hi s
  rwa [h] at hput

theorem cycle_fault_of_rnd {tick : Bool} {rnd : Byte} {s : State} {f : Fault} (h : cycle tick rnd s = .fault f)
    (rnd' : Byte) : cycle tick rnd' s = .fault f := by
  rw [cycle_eq_fault] at h ⊢
  rcases h with hfetch | ⟨w, i, hw, hi, hexec⟩
  · exact .inl hfetch
  · exact .inr ⟨w, i, hw, hi, exec_fault_of_rnd hexec rnd'⟩

/-- Settles O48: the host's view of a faulting cycle is the state it started from, and the fault does not depend on the
input byte. -/
theorem faultLeavesStateAndRepeats : Obligations.FaultLeavesStateAndRepeats := by
  unfold Obligations.FaultLeavesStateAndRepeats
  exact fun tick rnd s f h => ⟨perform_cycle_of_fault h, cycle_fault_of_rnd h⟩

/-- An access through `I` faults exactly when the bounds check fails. -/
theorem bounds_fault_iff {s t : State} {c : Bool} :
    (∃ info, (if c then .next t else .fault s.boundsFault : Result) = .fault (.memoryOutOfBounds info)) ↔ ¬ c = true := by
  cases c
  · exact ⟨fun _ => Bool.false_ne_true, fun _ => ⟨_, rfl⟩⟩
  · exact ⟨fun ⟨_, h⟩ => (nomatch h), fun h => absurd rfl h⟩

/-- Settles O46: each of the four accesses is guarded by the bounds check of its bytes, and the host's view of a
faulting cycle is the state it started from. -/
theorem memoryFaultExactlyOutOfBounds : Obligations.MemoryFaultExactlyOutOfBounds := by
  unfold Obligations.MemoryFaultExactlyOutOfBounds
  refine fun x y s => ⟨fun n => ?drw, ?ldB, ?store, ?load, fun tick rnd info => perform_cycle_of_fault⟩
  case drw =>
    rw [exec_drw_boundsFault, bounds_fault_iff, inBounds_iff, State.ea]
    omega
  case ldB =>
    rw [exec_ldB, bounds_fault_iff, inBounds_iff, State.ea]
    omega
  case store =>
    rw [exec_store, bounds_fault_iff, inBounds_iff, State.ea]
    omega
  case load =>
    rw [exec_load, bounds_fault_iff, inBounds_iff, State.ea]
    omega

end Sys2Proof.Machine
end

section
/-!
PROOFS. VF after every instruction (spec/10_state.md R22): the flag an instruction names, or its result where VF is its
destination, and what the frame leaves otherwise.
-/
namespace Sys2Proof.Machine

theorem lowBit_eq (a : Byte) : lowBit a = if a.getLsbD 0 = true then 1 else 0 := by
  revert a
  decide

theorem highBit_eq (a : Byte) : highBit a = if a.getLsbD 7 = true then 1 else 0 := by
  revert a
  decide

theorem highBit_shl_one (a : Byte) : highBit a <<< 1 = if a.getLsbD 7 = true then 2 else 0 := by
  revert a
  decide

theorem reset_VF : State.reset.V[regVF] = 0 := by
  decide

/-- An instruction that computes no flag, is no draw and does not name VF as its destination does not write VF. -/
theorem writesReg_VF_of_no_flag {i : Instr}
    (halu : ∀ x y, i ≠ .addReg x y ∧ i ≠ .subReg x y ∧ i ≠ .shr x y ∧ i ≠ .subnReg x y ∧ i ≠ .shl x y)
    (hdrw : ∀ x y n, i ≠ .drw x y n) (hdest : i.targetsVF = false) : i.writesReg regVF = false := by
  cases i with
  | addReg x y | subReg x y | shr x y | subnReg x y | shl x y => simp at halu
  | drw x y n => exact absurd rfl (hdrw x y n)
  | load x =>
    have hx : x ≠ regVF := by simpa [Instr.targetsVF] using hdest
    have hlt : x < regVF := lt_of_le_of_ne (Fin.le_last x) hx
    exact decide_eq_false (not_le_of_gt hlt)
  | ldByte x _ | addByte x _ | ldReg x _ | orReg x _ | andReg x _ | xorReg x _ | rnd x _ | ldVxDT x | ldVxK x =>
    exact BEq.comm.trans hdest
  | _ => rfl

/-- Settles O49, instruction by instruction: each write of VF is a flag or a result, and the frame tells the rest. -/
theorem flagRegisterTable : Obligations.FlagRegisterTable := by
  unfold Obligations.FlagRegisterTable
  refine ⟨reset_VF, fun i s t h => ⟨?addReg, ?subReg, ?shr, ?subnReg, ?shl, ?drw, ?shrVF, ?shlVF, ?ldByte, ?addByte,
    ?ldReg, ?orReg, ?andReg, ?xorReg, ?rnd, ?ldVxDT, ?waits, ?takes, ?load, ?others⟩⟩
  case addReg =>
    rintro x y rfl
    rw [exec_addReg] at h
    cases h
    rw [State.setVThenVF_VF, carryFlag, flagByte_decide]
  case subReg =>
    rintro x y rfl
    rw [exec_subReg] at h
    cases h
    rw [State.setVThenVF_VF, greaterFlag, flagByte_decide]
  case shr =>
    rintro x y rfl hx
    rw [exec_shr] at h
    cases h
    rw [s.setVFThenMap_VF _ hx, lowBit_eq]
  case subnReg =>
    rintro x y rfl
    rw [exec_subnReg] at h
    cases h
    rw [State.setVThenVF_VF, greaterFlag, flagByte_decide]
  case shl =>
    rintro x y rfl hx
    rw [exec_shl] at h
    cases h
    rw [s.setVFThenMap_VF _ hx, highBit_eq]
  case drw =>
    rintro x y n rfl
    obtain rfl := eq_draw_of_exec_drw h
    exact s.draw_VF_cases x y n
  case shrVF =>
    rintro y rfl
    rw [exec_shr] at h
    cases h
    rw [State.setVFThenMap_VF_self, lowBit_shr_one]
  case shlVF =>
    rintro y rfl
    rw [exec_shl] at h
    cases h
    rw [State.setVFThenMap_VF_self, highBit_shl_one]
  case ldByte =>
    rintro kk rfl
    cases h
    exact s.setV_V_self regVF _
  case addByte =>
    rintro kk rfl
    rw [exec_addByte] at h
    cases h
    rw [State.setV_V_self, sumByte_toNat]
  case ldReg =>
    rintro y rfl
    cases h
    exact s.setV_V_self regVF _
  case orReg =>
    rintro y rfl k
    rw [exec_orReg] at h
    cases h
    rw [State.setV_V_self, BitVec.getLsbD_or]
  case andReg =>
    rintro y rfl k
    rw [exec_andReg] at h
    cases h
    rw [State.setV_V_self, BitVec.getLsbD_and]
  case xorReg =>
    rintro y rfl k
    rw [exec_xorReg] at h
    cases h
    rw [State.setV_V_self, BitVec.getLsbD_xor]
  case rnd =>
    rintro kk rfl k
    cases h
    rw [State.setV_V_self, BitVec.getLsbD_and]
  case ldVxDT =>
    rintro rfl
    cases h
    exact s.setV_V_self regVF _
  case waits =>
    rintro rfl hup
    rw [exec_ldVxK_of_keys_up hup] at h
    cases h
    rfl
  case takes =>
    rintro rfl k hdown hlower
    rw [exec_ldVxK_of_lowest hdown hlower] at h
    cases h
    rw [State.setV_V_self, keyByte_toNat]
  case load =>
    rintro rfl
    obtain ⟨-, rfl⟩ := bounds_of_next h
    rw [State.loadRegs_V_get]
    rfl
  case others =>
    intro halu hdrw hdest
    exact (frame_of_exec h).reg regVF (writesReg_VF_of_no_flag halu hdrw hdest)

end Sys2Proof.Machine
end

section
/-!
PROOFS. The cycle and the host's operations (spec/40_cycle_engine.md): what a step runs, what an unrecognised word and
the tick do, and what `Reset`, `Load`, `SetKeys` and `Tick` leave.
-/
namespace Sys2Proof.Machine

/-! ## The cycle (R108 to R114) -/

/-- Settles O6: the fetch from inside memory succeeds, and the step is the cycle with the free byte. -/
theorem stepRunsDecodedInstruction : Obligations.StepRunsDecodedInstruction := by
  unfold Obligations.StepRunsDecodedInstruction
  intro s i w hpc hw hi
  exact ⟨cycle_of_decode (fetch_eq_ok.2 ⟨hpc, hw⟩) hi _ _, fun t => rfl⟩

theorem decayIf_toNat (tick : Bool) (t : Byte) :
    (if tick then decay t else t).toNat = if tick then t.toNat - 1 else t.toNat := by
  cases tick
  · rfl
  · exact decay_toNat t

/-- An instruction emits no diagnostic: the side channel is not in any instruction's row (R232). -/
theorem newDiagnostic_of_decode {s t : State} {w : Word} {i : Instr} {tick : Bool} {rnd : Byte}
    (hw : fetch s = .ok w) (hi : decode w = .ok i) (ht : cycle tick rnd s = .next t) : newDiagnostic s t = none := by
  rw [cycle_of_decode hw hi, mapNext_eq_next] at ht
  obtain ⟨u, hu, rfl⟩ := ht
  exact newDiagnostic_of_eq (frame_of_exec hu).diags

/-- The diagnostic of an unrecognised word holds the word and the address it was fetched from (R232, D18). -/
theorem report_enter_diags (w : Word) (rnd : Byte) (s : State) :
    (enter w rnd s).report.diags = ⟨w, s.pc⟩ :: s.diags := by
  have haddr : (enter w rnd s).instrAddr = s.pc := enter_pc_sub w rnd s
  rw [State.report_diags, haddr, enter_opcode, enter_diags]

/-- Settles O8: the unrecognised words are those of the decoder's default cases, and their cycle is a diagnostic on the
entered state, then the end of the cycle. -/
theorem unrecognisedWordIsReportedNoOp : Obligations.UnrecognisedWordIsReportedNoOp := by
  unfold Obligations.UnrecognisedWordIsReportedNoOp
  refine ⟨decode_eq_error_iff, fun s t w i tick rnd hw hi ht => ?ran, fun s w tick rnd hw he => ?noOp⟩
  case ran => rw [perform_cycle_of_next ht, newDiagnostic_of_decode hw hi ht]
  case noOp =>
    obtain ⟨hpc, -⟩ := fetch_eq_ok.1 hw
    have ht := cycle_of_unrecognised hw he tick rnd
    have hdiags := report_enter_diags w rnd s
    refine ⟨_, ht, ?_, enter_pc_toNat hpc w rnd, hdiags, decayIf_toNat tick s.DT, decayIf_toNat tick s.ST, rfl, rfl,
      rfl, rfl, rfl, rfl, rfl⟩
    rw [perform_cycle_of_next ht, newDiagnostic_of_cons (by exact hdiags)]

/-- The end of a ticking cycle is that of a cycle without tick, and then the two timers. -/
theorem endCycle_true (u : State) :
    endCycle true u = { endCycle false u with DT := decay u.DT, ST := decay u.ST } := rfl

/-- Settles O9: both cycles run the same dispatch and differ in the end of the cycle only. -/
theorem cycleTickFollowsHandler : Obligations.CycleTickFollowsHandler := by
  unfold Obligations.CycleTickFollowsHandler
  intro rnd s u hu
  cases hw : fetch s with
  | error f =>
    rw [cycle_eq_fault.2 (.inl hw)] at hu
    cases hu
  | ok w =>
    rw [cycle_of_fetch hw, mapNext_eq_next] at hu
    obtain ⟨v, hv, rfl⟩ := hu
    refine ⟨endCycle true v, ?_, decay_toNat v.DT, decay_toNat v.ST, endCycle_true v⟩
    rw [cycle_of_fetch hw, hv, mapNext_next]

theorem imm12_toNat {a : Nat} (h : a < 4096) : (BitVec.ofNat 12 a).toNat = a := by
  rw [BitVec.toNat_ofNat]
  omega

/-- The word of a jump to an address below 0x1000, by its value (R86). -/
theorem eq_formatNNN_of_toNat {w : Word} {a : Nat} (ha : a < 4096) (hw : w.toNat = 0x1000 + a) :
    w = formatNNN 0x1#4 (BitVec.ofNat 12 a) := by
  apply BitVec.eq_of_toNat_eq
  rw [toNat_formatNNN, hw, imm12_toNat ha]
  rfl

/-- Settles O58: the word at `pc` is a jump, and its target is `pc` again. -/
theorem selfJumpStaysPut : Obligations.SelfJumpStaysPut := by
  unfold Obligations.SelfJumpStaysPut
  intro tick rnd s hpc hw
  have hdecode := decode_formatNNN_jp (BitVec.ofNat 12 s.pc.toNat)
  rw [← eq_formatNNN_of_toNat (by omega) hw] at hdecode
  have htarget : addrOfImm (BitVec.ofNat 12 s.pc.toNat) = s.pc := by
    apply BitVec.eq_of_toNat_eq
    rw [addrOfImm_toNat, imm12_toNat (by omega)]
  refine ⟨_, by rw [cycle_of_decode (fetch_of_le hpc) hdecode, exec_jp, htarget, mapNext_next], rfl⟩

/-! ## The host's operations (R101 to R120, R262) -/

theorem Memory.blank_eq_zero {a : Nat} (h : a < 0x50 ∨ 0xA0 ≤ a) : Memory.blank a = 0 := by
  have hlen : Config.fontData.length = 80 := rfl
  unfold Memory.blank
  split
  next hle =>
    simp only [Config.fontBase] at *
    exact List.getD_eq_default _ _ (by omega)
  next => rfl

theorem Memory.blank_font {j : Nat} (h : j < Config.fontData.length) :
    Memory.blank (0x50 + j) = Config.fontData[j] := by
  simp [Memory.blank, h]

/-- Settles O11: the operation puts the reset state in place, whose memory lists nothing. -/
theorem resetGivesResetState : Obligations.ResetGivesResetState := by
  unfold Obligations.ResetGivesResetState
  refine fun tick s => ⟨s.resetOp, rfl, ?V, rfl, rfl, ?stack, rfl, rfl, ?key, FrameBuffer.blank_px,
    fun a => Memory.blank_eq_zero, fun j => Memory.blank_font, rfl, rfl, rfl⟩
  case V => intro r; simp [State.resetOp, State.reset]
  case stack => intro j; simp [State.resetOp, State.reset]
  case key => intro k; simp [State.resetOp, State.reset]

/-- The state after an accepted `Load` (R104). -/
def State.loaded (s : State) (img : List Byte) : State := (s.setMem (s.mem.putBytes 0x200 img)).setPc 0x200

theorem perform_load_of_le {s : State} {img : List Byte} (h : 0x200 + img.length ≤ 4096) (tick : Bool) :
    perform tick (.load img) s = (s.loaded img, .ok) := by
  rw [perform, State.loadImage?, if_neg (Nat.not_lt.2 h)]
  rfl

theorem perform_load_of_gt {s : State} {img : List Byte} (h : 4096 < 0x200 + img.length) (tick : Bool) :
    perform tick (.load img) s = (s, .loadTooLarge) := by
  rw [perform, State.loadImage?, if_pos h]

@[simp] theorem State.loaded_pc (s : State) (img : List Byte) : (s.loaded img).pc = 0x200 := rfl

theorem State.loaded_byte (s : State) (img : List Byte) (a : Nat) :
    (s.loaded img).mem.byte a = if 0x200 ≤ a ∧ a < 0x200 + img.length then img.getD (a - 0x200) 0 else s.mem.byte a :=
  Memory.byte_putBytes ..

theorem State.loaded_byte_image (s : State) {img : List Byte} {j : Nat} (h : j < img.length) :
    (s.loaded img).mem.byte (0x200 + j) = img[j] := by
  rw [State.loaded_byte, if_pos (by omega), Nat.add_sub_cancel_left, List.getD_eq_getElem _ _ h]

theorem State.sameBut_loaded (s : State) (img : List Byte) :
    State.SameBut { pc := true, mem := true } s (s.loaded img) := by
  simp [State.SameBut, State.loaded]

/-- A loaded image that fits keeps the canonical form of memory. -/
theorem State.wf_loaded {s : State} {img : List Byte} (h : 0x200 + img.length ≤ 4096) (hm : s.mem.wf) :
    (s.loaded img).mem.wf :=
  Memory.wf_putBytes hm h

/-- Settles O12, by the two answers to the size of the image. -/
theorem loadCopiesImageOrRefuses : Obligations.LoadCopiesImageOrRefuses := by
  unfold Obligations.LoadCopiesImageOrRefuses
  refine fun tick img s => ⟨fun h => ?fits, fun h => perform_load_of_gt h tick⟩
  case fits =>
    refine ⟨_, perform_load_of_le h tick, rfl, fun j => s.loaded_byte_image, fun a ha => ?_, s.sameBut_loaded img,
      State.wf_loaded h⟩
    rw [State.loaded_byte, if_neg (by omega)]

@[simp] theorem perform_setKeys (tick : Bool) (k : Vector Bool 16) (s : State) :
    perform tick (.setKeys k) s = (s.setKey k, .ok) := rfl

/-- Settles O13: the operation is one write of the snapshot. -/
theorem setKeysReplacesSnapshot : Obligations.SetKeysReplacesSnapshot :=
  perform_setKeys

@[simp] theorem perform_tick (tick : Bool) (s : State) : perform tick .tick s = (s.tickIf true, .ok) := rfl

theorem State.sameBut_tickIf (s : State) (on : Bool) :
    State.SameBut { DT := true, ST := true } s (s.tickIf on) := by
  simp [State.SameBut]

/-- Settles O14: the operation is one decay of each timer. -/
theorem tickDecrementsTimers : Obligations.TickDecrementsTimers := by
  unfold Obligations.TickDecrementsTimers
  exact fun tick s => ⟨_, perform_tick tick s, decay_toNat s.DT, decay_toNat s.ST, s.sameBut_tickIf true⟩

/-- Settles O16, operation by operation. -/
theorem onlyResetBeforeReset : Obligations.OnlyResetBeforeReset := by
  unfold Obligations.OnlyResetBeforeReset
  intro tick op
  constructor
  · rintro rfl
    rfl
  · intro hop
    cases op with
    | reset => exact absurd rfl hop
    | _ => rfl

end Sys2Proof.Machine
end

section
/-!
PROOFS. Legal states (spec/10_state.md sections 3 and 5): the canonical form of memory, the range of `pc` and the live
return addresses, kept by every cycle and by every operation of the host.
-/
namespace Sys2Proof.Machine

/-! ## The canonical form of memory (log 5) -/

/-- Two canonical memories that read alike list the same lowest address. -/
theorem Memory.head_addr_le {c d : Host.Cell} {m n : Memory} (hc : Memory.wf (c :: m)) (hd : Memory.wf (d :: n))
    (h : Memory.byte (c :: m) d.1 = Memory.byte (d :: n) d.1) : c.1 ≤ d.1 := by
  by_contra hlt
  rw [Memory.byte_below_head hc (by omega)] at h
  exact Memory.byte_head_ne (k := d.1) (w := d.2) hd h.symm

/-- An empty canonical memory reads as the reset contents, a listed address does not. -/
theorem Memory.ne_nil_of_wf_cons {c : Host.Cell} {m : Memory} (hc : Memory.wf (c :: m)) :
    ¬ ∀ a, Memory.byte (c :: m) a = Memory.byte [] a :=
  fun h => Memory.byte_head_ne (k := c.1) (w := c.2) hc (h c.1)

theorem Memory.byte_cons_self (c : Host.Cell) (m : Memory) : Memory.byte (c :: m) c.1 = c.2 := by
  obtain ⟨k, v⟩ := c
  simp [Memory.byte]

/-- The tail of a canonical memory reads as the memory does, but at the head's address. -/
theorem Memory.byte_tail {c : Host.Cell} {m : Memory} (hc : Memory.wf (c :: m)) (a : Nat) :
    Memory.byte m a = if a = c.1 then Memory.blank a else Memory.byte (c :: m) a := by
  split
  next ha =>
    subst ha
    exact Memory.byte_of_lt (Memory.lt_of_wf hc)
  next ha =>
    obtain ⟨k, v⟩ := c
    exact (if_neg ha).symm

theorem Memory.eq_of_byte_eq {m n : Memory} (hm : m.wf) (hn : n.wf) (h : ∀ a, m.byte a = n.byte a) : m = n := by
  induction m generalizing n with
  | nil =>
    cases n with
    | nil => rfl
    | cons d n => exact absurd (fun a => (h a).symm) (Memory.ne_nil_of_wf_cons hn)
  | cons c m ih =>
    cases n with
    | nil => exact absurd h (Memory.ne_nil_of_wf_cons hm)
    | cons d n =>
      have haddr : c.1 = d.1 :=
        Nat.le_antisymm (Memory.head_addr_le hm hn (h d.1)) (Memory.head_addr_le hn hm (h c.1).symm)
      have hbyte : c.2 = d.2 := by
        rw [← Memory.byte_cons_self c m, h, haddr, Memory.byte_cons_self]
      have htail : m = n := by
        refine ih (Memory.wf_tail hm) (Memory.wf_tail hn) fun a => ?_
        rw [Memory.byte_tail hm, Memory.byte_tail hn, haddr, h]
      rw [Prod.ext haddr hbyte, htail]

/-- Settles O56, by induction on the two lists: their heads are the lowest address that does not read as after reset. -/
theorem canonicalMemoryUnique : Obligations.CanonicalMemoryUnique := by
  unfold Obligations.CanonicalMemoryUnique
  exact fun m₁ m₂ => Memory.eq_of_byte_eq

/-! ## A cycle from a legal state (R25) -/

/-- A store through `I` that is in bounds keeps the canonical form. -/
theorem State.wf_storeAtI {s : State} {bs : List Byte} (hm : s.mem.wf) (h : s.ea 0 + bs.length ≤ 4096) :
    (s.storeAtI bs).mem.wf :=
  Memory.wf_putBytes hm h

theorem wf_of_exec {i : Instr} {s t : State} (hm : s.mem.wf) (h : exec i s = .next t) : t.mem.wf := by
  have hframe := frame_of_exec h
  cases i with
  | ldB x =>
    obtain ⟨hin, rfl⟩ := bounds_of_next h
    exact State.wf_storeAtI hm (((inBounds_iff _ _).1 hin).resolve_left (by decide))
  | store x =>
    obtain ⟨hin, rfl⟩ := bounds_of_next h
    refine State.wf_storeAtI hm ?_
    rw [State.length_regsTo]
    exact ((inBounds_iff _ _).1 hin).resolve_left (Nat.succ_ne_zero _)
  | _ => rwa [hframe.mem rfl]

/-- Every live return address of the state is at most 0x1000 (R25). -/
abbrev State.LiveReturns (s : State) : Prop := ∀ j : Fin 16, j.val < s.sp.val → (s.stack[j]).toNat ≤ 0x1000

/-- A call pushes the entered `pc`, a return only counts down, and the others leave the stack. -/
theorem liveReturns_of_exec {i : Instr} {s t : State} (hs : s.LiveReturns) (hpc : s.pc.toNat ≤ 0x1000)
    (h : exec i s = .next t) : t.LiveReturns := by
  have hframe := frame_of_exec h
  cases i with
  | call nnn =>
    rcases Nat.lt_or_ge s.sp.val 16 with hsp | hsp
    · intro j hj
      by_cases hslot : j.val = s.sp.val
      · have hpushed := slot_of_exec_call h hsp
        obtain rfl : j = ⟨s.sp.val, hsp⟩ := Fin.ext hslot
        exact (congrArg BitVec.toNat hpushed).trans_le hpc
      · rw [exec_call_of_lt hsp] at h
        cases h
        rw [hframe.slot j hslot]
        exact hs j (Nat.lt_of_le_of_ne (Nat.le_of_lt_succ hj) hslot)
    · rw [exec_call_of_full (by omega)] at h
      cases h
  | ret =>
    rcases Nat.eq_zero_or_pos s.sp.val with hsp | hsp
    · rw [exec_ret_of_empty hsp] at h
      cases h
    · rw [exec_ret_of_pos hsp] at h
      cases h
      exact fun j hj => hs j (Nat.lt_of_lt_of_le hj (Nat.sub_le _ _))
  | _ =>
    intro j hj
    rw [hframe.stack rfl]
    rw [hframe.sp rfl] at hj
    exact hs j hj

/-- The table's values of `pc` after a cycle from a legal state: at most 0xFF + 0xFFF. -/
theorem pcAfter_le {s : State} (hpc : s.pc.toNat ≤ 0xFFE) (hlive : s.LiveReturns) (i : Instr) :
    i.pcAfter s ≤ 0x10FE := by
  have hskip (c : Prop) [Decidable c] : (if c then s.pc.toNat + 4 else s.pc.toNat + 2) ≤ 0x10FE := by
    split <;> omega
  cases i with
  | jp nnn | call nnn => exact Nat.le_trans (Nat.le_of_lt nnn.isLt) (by decide)
  | jpV0 nnn =>
    have := nnn.isLt
    have := (s.V[(0 : Reg)]).isLt
    simp only [Instr.pcAfter]
    omega
  | ret =>
    rw [Instr.pcAfter]
    split
    next hsp =>
      have hlt : s.sp.val - 1 < 16 := by omega
      exact Nat.le_trans (hlive ⟨s.sp.val - 1, hlt⟩ (Nat.sub_lt hsp Nat.one_pos)) (by decide)
    next => exact Nat.zero_le _
  | seByte x kk | sneByte x kk | seReg x y | sneReg x y | skp x | sknp x => exact hskip _
  | ldVxK x =>
    rw [Instr.pcAfter]
    split <;> omega
  | _ =>
    show s.pc.toNat + 2 ≤ 0x10FE
    omega

theorem inv_of_cycle {tick : Bool} {rnd : Byte} {s t : State} (hs : s.Inv) (h : cycle tick rnd s = .next t) :
    t.Inv := by
  obtain ⟨hmem, -, hlive⟩ := hs
  obtain ⟨w, hw, hran⟩ := cycle_eq_next.1 h
  obtain ⟨hpc, -⟩ := fetch_eq_ok.1 hw
  have henter := enter_pc_toNat hpc w rnd
  rcases hran with ⟨i, u, -, hu, rfl⟩ | ⟨-, rfl⟩
  · refine ⟨wf_of_exec (s := enter w rnd s) (t := u) hmem hu, ?_, ?_⟩
    · rw [endCycle_pc, pc_of_exec hpc w rnd hu]
      exact pcAfter_le hpc hlive i
    · exact liveReturns_of_exec (s := enter w rnd s) (t := u) hlive (by omega) hu
  · refine ⟨hmem, ?_, hlive⟩
    rw [endCycle_pc, State.report_pc]
    omega

/-- Settles O54: a step is a cycle, and every cycle keeps each of the three parts of the invariant. -/
theorem stepKeepsInv : Obligations.StepKeepsInv := by
  unfold Obligations.StepKeepsInv
  exact fun s t => inv_of_cycle

/-! ## The host's operations from a legal state -/

/-- Settles O53: nothing is listed, nothing is pushed, and `pc` is 0x200. -/
theorem invAtReset : Obligations.InvAtReset := by
  unfold Obligations.InvAtReset
  exact ⟨Memory.wf_nil, by decide, fun j hj => absurd hj (Nat.not_lt_zero _)⟩

theorem inv_of_perform (tick : Bool) (op : HostOp) {s : State} (hs : s.Inv) : (perform tick op s).1.Inv := by
  cases op with
  | reset => exact invAtReset
  | load img =>
    obtain ⟨hmem, hpc, hlive⟩ := hs
    rcases Nat.lt_or_ge 4096 (0x200 + img.length) with hgt | hle
    · rw [perform_load_of_gt hgt]
      exact ⟨hmem, hpc, hlive⟩
    · rw [perform_load_of_le hle]
      exact ⟨State.wf_loaded hle hmem, by rw [State.loaded_pc]; decide, hlive⟩
  | cycle rnd =>
    cases hc : cycle tick rnd s with
    | next t =>
      rw [perform_cycle_of_next hc]
      exact inv_of_cycle hs hc
    | fault f => rwa [perform_cycle_of_fault hc]
    | refused r => exact absurd hc (cycle_ne_refused tick rnd s r)
  | setKeys k => exact hs
  | tick => exact hs
  | readFrameBuffer => exact hs
  | readTimers => exact hs

/-- A schedule keeps what each of its operations keeps. -/
theorem inv_of_performAll (tick : Bool) (ops : List HostOp) {s : State} (hs : s.Inv) :
    (performAll tick ops s).1.Inv := by
  induction ops generalizing s with
  | nil => exact hs
  | cons op ops ih => exact ih (inv_of_perform tick op hs)

/-- Settles O55: by cases on the operation, then by induction on the schedule from the reset state. -/
theorem hostOperationsKeepInv : Obligations.HostOperationsKeepInv := by
  unfold Obligations.HostOperationsKeepInv
  refine ⟨fun tick op s => inv_of_perform tick op, fun tick ops => ?_⟩
  obtain ⟨hmem, hpc, hlive⟩ := inv_of_performAll tick ops invAtReset
  exact ⟨⟨hmem, hpc, hlive⟩, hpc⟩

end Sys2Proof.Machine
end
